-- ==== Sys2Proof/Word.lean ====
section
/-! DEFINITION. The one word size of the machine: the unsigned byte (R30, R61). -/

namespace Sys2Proof

/-- `u8`: a register's value, a memory cell, an opcode, an operand byte (R30, R61, R90). -/
abbrev Byte := BitVec 8

end Sys2Proof
end

