-- ==== Sys2Proof/Config.lean ====
section
/-! DEFINITION. The implementation parameters of R6, as plain data. They are fixed for a machine; every definition that
needs one takes it as an argument or reads it from the state that carries it (log 3 [DESIGN CHOICE, safe]). -/

namespace Sys2Proof

/-- OPCODE_MAP: the opcode byte of each instruction (R6, R94). -/
structure OpcodeMap where
  hlt : Byte
  ldi : Byte
  prn : Byte
  add : Byte
  mul : Byte
  cmp : Byte
  push : Byte
  pop : Byte
  call : Byte
  ret : Byte
  jmp : Byte
  jeq : Byte
  jne : Byte
deriving DecidableEq, Repr

/-- Every row of R6's table that is marked `parameter`. The rows marked `fixed` are in the definitions that use them. -/
structure Config where
  /-- MEM_SIZE, the number of memory cells (R60). -/
  memSize : Nat
  /-- OPCODE_MAP (R94). -/
  opcodes : OpcodeMap
  /-- SP_INIT, the reset value of R7 (R47). -/
  spInit : Byte
  /-- REG_INIT, the reset values of R0 to R6 (R48). -/
  regInit : Vector Byte 7
  /-- MEM_INIT, the cells at launch outside the image (R291), listed as memory is. -/
  memInit : List Host.Cell
deriving DecidableEq, Repr

end Sys2Proof
end

