-- ==== Sys2Proof/Syntax.lean ====
section
/-! DEFINITION. The thirteen instructions of R2, as names and as instructions with their operand bytes. -/

namespace Sys2Proof

/-- The names of the instruction set, "exactly the thirteen instructions" of R2. -/
inductive Mnemonic where
  | hlt | ldi | prn | add | mul | cmp | push | pop | call | ret | jmp | jeq | jne
deriving DecidableEq, Repr

/-- The thirteen names in the order R2 lists them. -/
def Mnemonic.all : List Mnemonic :=
  [.hlt, .ldi, .prn, .add, .mul, .cmp, .push, .pop, .call, .ret, .jmp, .jeq, .jne]

/-- A decoded instruction: its name and the operand BYTES its format uses (R91). A register operand stays a byte,
because R124 gives the instruction's rule the fetched bytes and it is that rule that checks them (R100, R255;
log 15 [DEDUCED, safe]). -/
inductive Instr where
  /-- Format N. R180. -/
  | hlt
  /-- Format RI: register byte `r`, immediate `imm`. R181. -/
  | ldi (r imm : Byte)
  /-- Format R. R182. -/
  | prn (r : Byte)
  /-- Format RR. R154. -/
  | add (a b : Byte)
  /-- Format RR. R155. -/
  | mul (a b : Byte)
  /-- Format RR. R156. -/
  | cmp (a b : Byte)
  /-- Format R. R203. -/
  | push (r : Byte)
  /-- Format R. R204. -/
  | pop (r : Byte)
  /-- Format R. R220. -/
  | call (r : Byte)
  /-- Format N. R221. -/
  | ret
  /-- Format R. R222. -/
  | jmp (r : Byte)
  /-- Format R. R223. -/
  | jeq (r : Byte)
  /-- Format R. R224. -/
  | jne (r : Byte)
deriving DecidableEq, Repr

end Sys2Proof
end

