-- ==== Sys2Proof/WellFormed.lean ====
section
/-! DEFINITION. Which instructions are well formed: every register operand byte has the form 0b00000rrr (R91, R100). -/

namespace Sys2Proof

/-- A byte that names a register: R0 to R7 (R100). -/
abbrev namesRegister (b : Byte) : Prop := b.toNat < 8

/-- Every register operand byte of the instruction names a register. LDI's immediate is never checked (R101). -/
abbrev Instr.WellFormed (i : Instr) : Prop :=
  match i with
  | .hlt => True
  | .ldi r _ => namesRegister r
  | .prn r => namesRegister r
  | .add a b => namesRegister a ∧ namesRegister b
  | .mul a b => namesRegister a ∧ namesRegister b
  | .cmp a b => namesRegister a ∧ namesRegister b
  | .push r => namesRegister r
  | .pop r => namesRegister r
  | .call r => namesRegister r
  | .ret => True
  | .jmp r => namesRegister r
  | .jeq r => namesRegister r
  | .jne r => namesRegister r

end Sys2Proof
end

