-- ==== Sys2Proof/Decode.lean ====
section
/-! DEFINITION. Instruction encoding (30_encoding.md): the operand counts, the default opcode map, the admissible maps,
the decoder and the encoder. The decoder takes OPCODE_MAP as an argument, as R6 asks. -/

namespace Sys2Proof

/-- The operand count of each instruction (R94). -/
def Mnemonic.operandCount : Mnemonic → Nat
  | .hlt => 0
  | .ret => 0
  | .prn => 1
  | .push => 1
  | .pop => 1
  | .call => 1
  | .jmp => 1
  | .jeq => 1
  | .jne => 1
  | .ldi => 2
  | .add => 2
  | .mul => 2
  | .cmp => 2

/-- The field NN of an opcode byte, `op[7:6]` (R92, R93). -/
def operandBits (op : Byte) : Nat := (op.extractLsb' 6 2).toNat

/-- The opcode that the map gives an instruction (R94). -/
def OpcodeMap.code (m : OpcodeMap) : Mnemonic → Byte
  | .hlt => m.hlt
  | .ldi => m.ldi
  | .prn => m.prn
  | .add => m.add
  | .mul => m.mul
  | .cmp => m.cmp
  | .push => m.push
  | .pop => m.pop
  | .call => m.call
  | .ret => m.ret
  | .jmp => m.jmp
  | .jeq => m.jeq
  | .jne => m.jne

/-- The spec's default OPCODE_MAP, R95's table (log 1 [DESIGN CHOICE, unsafe]). -/
def OpcodeMap.default : OpcodeMap where
  hlt := 0b00000001
  ret := 0b00001001
  prn := 0b01000011
  call := 0b01001000
  pop := 0b01001100
  push := 0b01001101
  jmp := 0b01010000
  jeq := 0b01010001
  jne := 0b01010010
  ldi := 0b10011001
  cmp := 0b10100000
  add := 0b10101000
  mul := 0b10101010

/-- What R94 asks of a map: thirteen distinct opcodes, each with its instruction's operand count in bits 7:6. -/
abbrev OpcodeMap.Admissible (m : OpcodeMap) : Prop :=
  (Mnemonic.all.map m.code).Nodup ∧ ∀ k ∈ Mnemonic.all, operandBits (m.code k) = k.operandCount

/-- The map read in reverse, by all eight bits of the byte (R96, R97). On a map that R94 does not admit, the first
name in R2's order wins (log 14 [DESIGN CHOICE, safe]). -/
def OpcodeMap.lookup (m : OpcodeMap) (op : Byte) : Option Mnemonic :=
  Mnemonic.all.find? (fun k => m.code k == op)

/-- The selected instruction with the operand bytes of its format; the bytes it does not use are dropped (R91, R101). -/
def Instr.ofParts (k : Mnemonic) (a b : Byte) : Instr :=
  match k with
  | .hlt => .hlt
  | .ldi => .ldi a b
  | .prn => .prn a
  | .add => .add a b
  | .mul => .mul a b
  | .cmp => .cmp a b
  | .push => .push a
  | .pop => .pop a
  | .call => .call a
  | .ret => .ret
  | .jmp => .jmp a
  | .jeq => .jeq a
  | .jne => .jne a

/-- The one way in which three fetched bytes are no instruction (R96, R102). -/
inductive UnknownOpcode where
  /-- No instruction has this opcode. -/
  | unknownOpcode (op : Byte)
deriving DecidableEq, Repr

/-- Decode: the opcode byte and the two candidate operand bytes (R96, R98). Total. -/
def decode (m : OpcodeMap) (op a b : Byte) : Except UnknownOpcode Instr :=
  match m.lookup op with
  | some k => .ok (Instr.ofParts k a b)
  | none => .error (.unknownOpcode op)

/-- Why a list of bytes is no instruction. -/
inductive Reject where
  /-- The first byte is an unknown opcode (R102). -/
  | unknown (u : UnknownOpcode)
  /-- Fewer than the three bytes that every fetch reads (R121). -/
  | tooShort (n : Nat)
deriving DecidableEq, Repr

/-- Decode from a list of bytes in address order. Like a fetch it needs three bytes (R121); bytes after them are not read. -/
def decodeBytes (m : OpcodeMap) (bytes : List Byte) : Except Reject Instr :=
  match bytes with
  | op :: a :: b :: _ =>
    match decode m op a b with
    | .ok i => .ok i
    | .error u => .error (.unknown u)
  | short => .error (.tooShort short.length)

/-- The name of an instruction. -/
def Instr.mnemonic : Instr → Mnemonic
  | .hlt => .hlt
  | .ldi _ _ => .ldi
  | .prn _ => .prn
  | .add _ _ => .add
  | .mul _ _ => .mul
  | .cmp _ _ => .cmp
  | .push _ => .push
  | .pop _ => .pop
  | .call _ => .call
  | .ret => .ret
  | .jmp _ => .jmp
  | .jeq _ => .jeq
  | .jne _ => .jne

/-- The operand bytes of an instruction in address order: operand A, then operand B (R91). -/
def Instr.operands : Instr → List Byte
  | .hlt => []
  | .ldi r imm => [r, imm]
  | .prn r => [r]
  | .add a b => [a, b]
  | .mul a b => [a, b]
  | .cmp a b => [a, b]
  | .push r => [r]
  | .pop r => [r]
  | .call r => [r]
  | .ret => []
  | .jmp r => [r]
  | .jeq r => [r]
  | .jne r => [r]

/-- Encode: the opcode byte, then the operand bytes, at ascending addresses (R90, R91). -/
def encode (m : OpcodeMap) (i : Instr) : List Byte := m.code i.mnemonic :: i.operands

/-- The three bytes a fetch reads, from a number whose bits 7:0 are the first byte, with every bit at or above
`nbits` taken as 0 (log 12 [DESIGN CHOICE, safe]). -/
def tableBytes (nbits w : Nat) : List Byte :=
  [BitVec.ofNat 8 (w % 2 ^ nbits), BitVec.ofNat 8 (w % 2 ^ nbits / 2 ^ 8), BitVec.ofNat 8 (w % 2 ^ nbits / 2 ^ 16)]

/-- The instruction the decoder reads from a word numbered as spec/opcode_table.json numbers it, under the default map. -/
def decodeTableWord (nbits w : Nat) : Option Instr :=
  match decodeBytes OpcodeMap.default (tableBytes nbits w) with
  | .ok i => some i
  | .error _ => none

end Sys2Proof
end

