-- ==== Sys2Proof/Machine/Memory.lean ====
section
/-! DEFINITION. The memory array: a flat sequence of byte cells (R60, R61), as a list of the cells that differ from
what an unlisted cell reads as. The bounds of R62 and R63 are checked in Machine/Ops.lean, where MEM_SIZE is known. -/

namespace Sys2Proof.Machine

/-- The listed cells, in canonical form when `Memory.wf` holds. -/
abbrev Memory := List Host.Cell

/-- What a cell that is not listed reads as: 0, the runner's MEM_INIT (R291, log 6 [DESIGN CHOICE, unsafe]). -/
def Memory.unlisted : Byte := 0

/-- The byte in a cell. -/
def Memory.read : Memory → Nat → Byte
  | [], _ => Memory.unlisted
  | (k, v) :: rest, a => if k = a then v else Memory.read rest a

/-- Take every entry for a cell out of the list. -/
def Memory.erase (m : Memory) (a : Nat) : Memory := m.filter (fun c => decide (c.1 ≠ a))

/-- Put an entry in front of the first entry at a higher address. -/
def Memory.place (a : Nat) (v : Byte) : Memory → Memory
  | [] => [(a, v)]
  | (k, w) :: rest => if a < k then (a, v) :: (k, w) :: rest else (k, w) :: Memory.place a v rest

/-- Set a cell. Writing what an unlisted cell reads as leaves the cell unlisted. -/
def Memory.write (m : Memory) (a : Nat) (v : Byte) : Memory :=
  if v = Memory.unlisted then m.erase a else Memory.place a v (m.erase a)

/-- The canonical form: addresses strictly rising, no entry equal to what an unlisted cell reads as. -/
abbrev Memory.wf (m : Memory) : Prop :=
  m.Pairwise (fun x y => x.1 < y.1) ∧ ∀ c ∈ m, c.2 ≠ Memory.unlisted

/-- Every listed cell exists: its address is below MEM_SIZE (R60). -/
abbrev Memory.below (size : Nat) (m : Memory) : Prop := ∀ c ∈ m, c.1 < size

end Sys2Proof.Machine
end

