-- ==== Sys2Proof/Machine/Defaults.lean ====
section
/-! DEFINITION. The default of every parameter of R6, which configurations are admissible, and the register file a
configuration gives at reset. -/

namespace Sys2Proof

/-- R6's defaults. -/
def Config.default : Config where
  /- log 2 [DESIGN CHOICE, unsafe] -/
  memSize := 256
  /- R95, log 1 [DESIGN CHOICE, unsafe] -/
  opcodes := OpcodeMap.default
  /- R47, log 4 [DESIGN CHOICE, unsafe] -/
  spInit := 0xF4
  /- log 5 [DESIGN CHOICE, unsafe] -/
  regInit := #v[0, 0, 0, 0, 0, 0, 0]
  /- log 6 [DESIGN CHOICE, unsafe] -/
  memInit := []

/-- The constraints R6 and R94 put on the parameters, and the canonical form of the listed MEM_INIT. -/
abbrev Config.Admissible (c : Config) : Prop :=
  3 ≤ c.memSize ∧ c.memSize ≤ 256 ∧ c.opcodes.Admissible ∧
    Machine.Memory.wf c.memInit ∧ Machine.Memory.below c.memSize c.memInit

/-- The register file after reset: R0 to R6 hold REG_INIT and R7 holds SP_INIT (R47, R48). -/
def Config.launchRegs (c : Config) : Vector Byte 8 := c.regInit.push c.spInit

end Sys2Proof
end

