-- ==== Sys2Proof/Machine/State.lean ====
section
/-! DEFINITION. The state of the core (10_state.md), all of it plain data, and its value after reset. -/

namespace Sys2Proof.Machine

/-- The error kinds of R252 that carry status FAULT, each with its recorded value. -/
inductive FaultKind where
  /-- An access at an address at or above MEM_SIZE; records the address (R254). -/
  | memoryFault (addr : Nat)
  /-- A register operand byte of 8 or more; records the byte (R255). -/
  | registerIndexFault (b : Byte)
  /-- PUSH or CALL with SP = 0 (R256). -/
  | stackOverflow
  /-- POP or RET whose increment would make SP 256 (R257). -/
  | stackUnderflow
deriving DecidableEq, Repr

/-- The run status, R40's four values. -/
inductive Status where
  | running
  | halted
  | illegal (op : Byte)
  | fault (kind : FaultKind)
deriving DecidableEq, Repr

/-- The diagnostic report (R42, R263): the status value, which holds kind and recorded value and gives the code
(`Status.code`, Machine/Ops.lean), and the PC of the instruction concerned
(log 19 [DESIGN CHOICE, safe]). -/
structure Report where
  status : Status
  pc : Nat
deriving DecidableEq, Repr

/-- Everything the spec gives the machine, and the configuration that is fixed for it. -/
structure State where
  /-- The parameters of R6. Configuration, not state of the core (R45); no step changes it
  (log 3 [DESIGN CHOICE, safe]). -/
  cfg : Config
  /-- R0 to R7; R7 is SP (R30, R33). -/
  regs : Vector Byte 8
  /-- PC, a natural number that does not wrap (R35, R36). -/
  pc : Nat
  /-- FL, bits `00000LGE` (R37). -/
  fl : Byte
  /-- The run status (R40). -/
  status : Status
  /-- The output stream, oldest value first (R41). -/
  output : List Byte
  /-- The diagnostic report, absent until an error produces it (R42). -/
  report : Option Report
  /-- Memory (R60). -/
  mem : Memory
deriving DecidableEq, Repr

/-- Faults of the host interface, in which the machine stops without a next state. THERE IS NONE: every error of the
spec is a status that the spec describes (R251), so it is a NEXT state made by `State.raise`, and a tick in a stopped
state changes nothing (R127). No meaning and no step raises a fault (log 7 [DEDUCED, safe]). -/
inductive Fault where
deriving DecidableEq, Repr

/-- Refusals: an instruction without a meaning. -/
inductive Refusal where
  /-- An arm of `exec` that has no meaning yet, by its mnemonic. Raised by no arm of this model: every instruction
  has its meaning (safe). -/
  | notModelled (mnemonic : String)
deriving DecidableEq, Repr

/-- The machine right after reset under a configuration, before a load: R46 to R49, memory at MEM_INIT (R50, R291). -/
def State.resetWith (c : Config) : State where
  cfg := c
  regs := c.launchRegs
  pc := 0
  fl := 0
  status := .running
  output := []
  report := none
  mem := c.memInit

/-- The machine right after reset with every parameter at its default. -/
def State.reset : State := State.resetWith Config.default

end Sys2Proof.Machine
end

