-- ==== Sys2Proof/Machine/Ops.lean ====
section
/-! DEFINITION. The named operations over registers, PC and memory, and the ONE way the core takes an error
(60_exceptions.md). The core has no trap handler, so there is no return beside it (R250, R260). -/

namespace Sys2Proof.Machine

/-- `x[i]` (R30). -/
def State.reg (s : State) (i : Fin 8) : Byte := s.regs[i.val]

/-- `x[i] <- v` (R30). -/
def State.setReg (s : State) (i : Fin 8) (v : Byte) : State := { s with regs := s.regs.set i.val v }

/-- `sp`, that is `x[7]` (R33). -/
def State.sp (s : State) : Byte := s.reg 7

/-- `sp <- v`. -/
def State.setSp (s : State) (v : Byte) : State := s.setReg 7 v

/-- `MemRead(addr, 1)` (R62). -/
def State.memRead (s : State) (addr : Nat) : Except FaultKind Byte :=
  if addr < s.cfg.memSize then .ok (Memory.read s.mem addr) else .error (.memoryFault addr)

/-- `MemWrite(addr, 1, v)` (R63). -/
def State.memWrite (s : State) (addr : Nat) (v : Byte) : Except FaultKind State :=
  if addr < s.cfg.memSize then .ok { s with mem := Memory.write s.mem addr v } else .error (.memoryFault addr)

/-- `emit(v)`: append to the output stream (R41, R182). -/
def State.emit (s : State) (v : Byte) : State := { s with output := s.output ++ [v] }

/-- `halt` (R180). -/
def State.halt (s : State) : State := { s with status := .halted }

/-- The advance of R125 for an instruction that has not set PC: `pc + 1 + operand count`, without wrap (R36). The count
is the instruction's, which bits 7:6 of its opcode hold (R94). -/
def State.advance (s : State) (k : Mnemonic) : State := { s with pc := s.pc + 1 + k.operandCount }

/-- `pc <- x[r]`: an absolute target, not checked (R226). -/
def State.jumpTo (s : State) (target : Byte) : State := { s with pc := target.toNat }

/-- Taking an error, `raise` (R251, R263): the status becomes the error, the report records it with the PC of the
instruction, and nothing else changes. -/
def State.raise (s : State) (st : Status) : State :=
  { s with status := st, report := some { status := st, pc := s.pc } }

/-- The end of an instruction's Execute step (R124): the state it made, or, when one of its checks raised, the state it
STARTED FROM with the error taken, so that no write of it is kept. -/
def State.settle (s : State) (r : Except FaultKind State) : Host.Outcome State Fault Refusal :=
  match r with
  | .ok t => .next t
  | .error k => .next (s.raise (.fault k))

/-- The checks of a push, before any write (R201): `push_check`. -/
def State.pushCheck (s : State) : Except FaultKind Unit :=
  if s.sp = 0 then .error .stackOverflow
  else if s.cfg.memSize ≤ s.sp.toNat - 1 then .error (.memoryFault (s.sp.toNat - 1))
  else .ok ()

/-- The decrement of a push: `sp <- sp - 1` (R201). -/
def State.decSp (s : State) : State := s.setSp (s.sp - 1)

/-- The read of a pop, at the current SP (R202): `pop_read`. -/
def State.popRead (s : State) : Except FaultKind Byte := s.memRead s.sp.toNat

/-- The check of a pop's increment (R202): `pop_check`. The new SP is a natural number, which may be 256. -/
def popCheck (newSp : Nat) : Except FaultKind Unit :=
  if 255 < newSp then .error .stackUnderflow else .ok ()

/-- The code of a status in R252's table; RUNNING and HALTED have none. -/
def Status.code : Status → Option Nat
  | .running => none
  | .halted => none
  | .illegal _ => some 1
  | .fault (.memoryFault _) => some 2
  | .fault (.registerIndexFault _) => some 3
  | .fault .stackOverflow => some 4
  | .fault .stackUnderflow => some 5

/-- The recorded value of a status in R252's table. -/
def Status.recorded : Status → Option Nat
  | .running => none
  | .halted => none
  | .illegal op => some op.toNat
  | .fault (.memoryFault addr) => some addr
  | .fault (.registerIndexFault b) => some b.toNat
  | .fault .stackOverflow => none
  | .fault .stackUnderflow => none

/-- The code a diagnostic report holds (R263). -/
def Report.code (r : Report) : Option Nat := r.status.code

/-- The recorded value a diagnostic report holds (R263). -/
def Report.recorded (r : Report) : Option Nat := r.status.recorded

end Sys2Proof.Machine
end

