-- ==== Sys2Proof/Machine/Flags.lean ====
section
/-! DEFINITION. The flags register FL: its bits (R37), and the value CMP writes (R156). -/

namespace Sys2Proof.Machine

/-- The result of a comparison (R150, R152). -/
inductive Comparison where
  | less | greater | equal
deriving DecidableEq, Repr

/-- `alu_cmp`: the three-way unsigned comparison (R152). -/
def aluCmp (x y : Byte) : Comparison :=
  if x.toNat < y.toNat then .less else if y.toNat < x.toNat then .greater else .equal

/-- FL after a comparison: exactly one of L, G and E (R156). -/
def flOf : Comparison → Byte
  | .less => 0b00000100
  | .greater => 0b00000010
  | .equal => 0b00000001

/-- Flag E, bit 0 of FL (R37), the only flag an instruction reads (R38). -/
def State.flagE (s : State) : Bool := s.fl.getLsbD 0

/-- Flag G, bit 1 of FL (R37). -/
def State.flagG (s : State) : Bool := s.fl.getLsbD 1

/-- Flag L, bit 2 of FL (R37). -/
def State.flagL (s : State) : Bool := s.fl.getLsbD 2

/-- `fl <- v` (R37). -/
def State.setFl (s : State) (v : Byte) : State := { s with fl := v }

/-- The values FL can hold: no flag, or exactly one, and bits 7:3 zero (R37, R39). -/
abbrev legalFl (v : Byte) : Prop := v = 0 ∨ v = 0b00000001 ∨ v = 0b00000010 ∨ v = 0b00000100

end Sys2Proof.Machine
end

