-- ==== Sys2Proof/Machine/Operands.lean ====
section
/-! DEFINITION. The operand forms (R91): a register operand byte, and an immediate, which is its byte as it stands (R99). -/

namespace Sys2Proof.Machine

/-- `reg(b)` (R100): the register index, or RegisterIndexFault(b) when the byte is 8 or more. -/
def regIndex (b : Byte) : Except FaultKind (Fin 8) :=
  if h : b.toNat < 8 then .ok ⟨b.toNat, h⟩ else .error (.registerIndexFault b)

end Sys2Proof.Machine
end

