-- ==== Sys2Proof/Machine/Alu.lean ====
section
/-! DEFINITION. The ALU (R150 to R153): a function of an operation tag and two register values, and the Execute step
that ADD, MUL and CMP share. Width and order are the spec's decisions D4 and D6 (log 17 [UNVERIFIED, unsafe]). -/

namespace Sys2Proof.Machine

/-- The ALU's operation tags (R150). No instruction reaches `inc` and `dec` (R153). -/
inductive AluTag where
  | add | mul | inc | dec | cmp
deriving DecidableEq, Repr

/-- What the ALU produces: a new value for the first register, or a comparison and no register write (R150). -/
inductive AluResult where
  | value (v : Byte)
  | comparison (c : Comparison)
deriving DecidableEq, Repr

/-- `alu_add`: (x + y) mod 256 (R151). -/
def aluAdd (x y : Byte) : Byte := x + y

/-- `alu_mul`: the low 8 bits of the product (R151). -/
def aluMul (x y : Byte) : Byte := x * y

/-- `alu_inc`: (x + 1) mod 256 (R151). -/
def aluInc (x : Byte) : Byte := x + 1

/-- `alu_dec`: (x + 255) mod 256 (R151). -/
def aluDec (x : Byte) : Byte := x + 255

/-- The ALU as one function of its tag and the two register values (R150). -/
def alu (t : AluTag) (x y : Byte) : AluResult :=
  match t with
  | .add => .value (aluAdd x y)
  | .mul => .value (aluMul x y)
  | .inc => .value (aluInc x)
  | .dec => .value (aluDec x)
  | .cmp => .comparison (aluCmp x y)

/-- Where an ALU result goes: a value into the first register, a comparison into all of FL (R150, R156). -/
def State.putResult (s : State) (ra : Fin 8) : AluResult → State
  | .value v => s.setReg ra v
  | .comparison c => s.setFl (flOf c)

/-- The Execute and Advance steps that ADD, MUL and CMP share: operand A checked before operand B (R255), the ALU on the
two registers, the result put, PC advanced by 3. -/
def execAlu (t : AluTag) (k : Mnemonic) (a b : Byte) (s : State) : Host.Outcome State Fault Refusal :=
  s.settle (do
    let ra ← regIndex a
    let rb ← regIndex b
    .ok ((s.putResult ra (alu t (s.reg ra) (s.reg rb))).advance k))

end Sys2Proof.Machine
end

