-- ==== Sys2Proof/Machine/Arithmetic.lean ====
section
/-! DEFINITION. The meanings of ADD, MUL and CMP (41_alu.md). -/

namespace Sys2Proof.Machine

/-- ADD (R154): x[ra] <- (x[ra] + x[rb]) mod 256. -/
def execAdd (a b : Byte) (s : State) : Host.Outcome State Fault Refusal := execAlu .add .add a b s

/-- MUL (R155): x[ra] <- (x[ra] * x[rb]) mod 256. -/
def execMul (a b : Byte) (s : State) : Host.Outcome State Fault Refusal := execAlu .mul .mul a b s

/-- CMP (R156): FL <- L, G or E alone. -/
def execCmp (a b : Byte) (s : State) : Host.Outcome State Fault Refusal := execAlu .cmp .cmp a b s

end Sys2Proof.Machine
end

