-- ==== Sys2Proof/Machine/Control.lean ====
section
/-! DEFINITION. The meanings of CALL, RET, JMP, JEQ and JNE (44_control.md). -/

namespace Sys2Proof.Machine

/-- CALL (R220): push pc + 2, then PC <- x[r], read after the push. After a fetch pc + 2 is below MEM_SIZE, so it fits
the byte; in a state no fetch leads to, its low 8 bits are pushed (log 10 [DESIGN CHOICE, safe]). -/
def execCall (a : Byte) (s : State) : Host.Outcome State Fault Refusal :=
  s.settle (do
    let r ← regIndex a
    s.pushCheck
    let t := s.decSp
    let u ← t.memWrite t.sp.toNat (BitVec.ofNat 8 (s.pc + 2))
    .ok (u.jumpTo (u.reg r)))

/-- RET (R221): pop a byte into PC. -/
def execRet (s : State) : Host.Outcome State Fault Refusal :=
  s.settle (do
    let v ← s.popRead
    popCheck (s.sp.toNat + 1)
    .ok ((s.setSp (s.sp + 1)).jumpTo v))

/-- JMP (R222): PC <- x[r]. -/
def execJmp (a : Byte) (s : State) : Host.Outcome State Fault Refusal :=
  s.settle (do
    let r ← regIndex a
    .ok (s.jumpTo (s.reg r)))

/-- JEQ (R223): PC <- x[r] if E is set, else the advance. The operand is checked either way. -/
def execJeq (a : Byte) (s : State) : Host.Outcome State Fault Refusal :=
  s.settle (do
    let r ← regIndex a
    .ok (if s.flagE then s.jumpTo (s.reg r) else s.advance .jeq))

/-- JNE (R224): PC <- x[r] if E is clear, else the advance. The operand is checked either way. -/
def execJne (a : Byte) (s : State) : Host.Outcome State Fault Refusal :=
  s.settle (do
    let r ← regIndex a
    .ok (if s.flagE then s.advance .jne else s.jumpTo (s.reg r)))

end Sys2Proof.Machine
end

