-- ==== Sys2Proof/Machine/Stack.lean ====
section
/-! DEFINITION. The meanings of PUSH and POP (43_stack.md). -/

namespace Sys2Proof.Machine

/-- PUSH (R203): decrement SP, then write x[r], read after the decrement, at the new SP. -/
def execPush (a : Byte) (s : State) : Host.Outcome State Fault Refusal :=
  s.settle (do
    let r ← regIndex a
    s.pushCheck
    let t := s.decSp
    let u ← t.memWrite t.sp.toNat (t.reg r)
    .ok (u.advance .push))

/-- POP (R204): read at SP into x[r], then increment SP as the register write has left it. With r = 7
the increment reads the popped byte, so SP = 255 is then no underflow of its own (log 9 [DEDUCED, unsafe]). -/
def execPop (a : Byte) (s : State) : Host.Outcome State Fault Refusal :=
  s.settle (do
    let r ← regIndex a
    let v ← s.popRead
    let newSp := (if r = 7 then v else s.sp).toNat + 1
    popCheck newSp
    .ok (((s.setReg r v).setSp (BitVec.ofNat 8 newSp)).advance .pop))

end Sys2Proof.Machine
end

