-- ==== Sys2Proof/Machine/SystemIo.lean ====
section
/-! DEFINITION. The meanings of HLT, LDI and PRN (42_system_io.md). -/

namespace Sys2Proof.Machine

/-- HLT (R180): status HALTED; PC still advances by 1 (R126). -/
def execHlt (s : State) : Host.Outcome State Fault Refusal := .next (s.halt.advance .hlt)

/-- LDI (R181): x[r] <- the immediate. -/
def execLdi (a imm : Byte) (s : State) : Host.Outcome State Fault Refusal :=
  s.settle (do
    let r ← regIndex a
    .ok ((s.setReg r imm).advance .ldi))

/-- PRN (R182): x[r] is appended to the output stream. -/
def execPrn (a : Byte) (s : State) : Host.Outcome State Fault Refusal :=
  s.settle (do
    let r ← regIndex a
    .ok ((s.emit (s.reg r)).advance .prn))

end Sys2Proof.Machine
end

