-- ==== Sys2Proof/Machine/Fetch.lean ====
section
/-! DEFINITION. The Fetch and Decode steps of the tick (R121, R123). -/

namespace Sys2Proof.Machine

/-- Fetch (R121): the opcode and both candidate operands, in address order, for every opcode. -/
def State.fetch (s : State) : Except FaultKind (Byte × Byte × Byte) := do
  let op ← s.memRead s.pc
  let a ← s.memRead (s.pc + 1)
  let b ← s.memRead (s.pc + 2)
  .ok (op, a, b)

/-- Fetch, then Decode: the instruction of this tick, or the error the tick ends with (R121, R123, R258). -/
def State.fetchDecode (s : State) : Except Status Instr :=
  match s.fetch with
  | .error k => .error (.fault k)
  | .ok (op, a, b) =>
    match decode s.cfg.opcodes op a b with
    | .ok i => .ok i
    | .error (.unknownOpcode u) => .error (.illegal u)

/-- A tick given while status is not RUNNING changes nothing (R127, log 8 [DESIGN CHOICE, safe]). -/
def State.idle (s : State) : State := s

end Sys2Proof.Machine
end

