-- ==== Sys2Proof/Machine/Launch.lean ====
section
/-! DEFINITION. What the host can do to the core beside ticking it, and what it can see of it (R51 to R56, R297;
log 18 [DESIGN CHOICE, unsafe]). -/

namespace Sys2Proof.Machine

/-- `poke(address, value)`: the load port (R52). A byte at or above MEM_SIZE has no cell and is dropped
(log 11 [DESIGN CHOICE, unsafe]). -/
def State.poke (s : State) (addr : Nat) (v : Byte) : State :=
  if addr < s.cfg.memSize then { s with mem := Memory.write s.mem addr v } else s

/-- Poke a list of bytes at consecutive addresses (R291). -/
def State.pokeAll (s : State) (addr : Nat) : List Byte → State
  | [] => s
  | b :: rest => (s.poke addr b).pokeAll (addr + 1) rest

/-- Reset (R290): the core's state at R46 to R49. Memory is not the core's; a new load fills it (R291;
log 20 [DEDUCED, safe]). -/
def State.hostReset (s : State) : State := { State.resetWith s.cfg with mem := s.mem }

/-- Load (R291): every cell at MEM_INIT, then the i-th byte of the image poked at address i. -/
def State.load (s : State) (image : List Byte) : State := { s with mem := s.cfg.memInit }.pokeAll 0 image

/-- Reset and load: the state before the first tick of a run. -/
def State.launch (c : Config) (image : List Byte) : State := (State.resetWith c).load image

/-- The halted output (R54): true exactly when status is not RUNNING. -/
def State.haltedOut (s : State) : Bool := decide (s.status ≠ .running)

/-- The output port (R55): the values PRN has emitted, in order. -/
def State.outputPort (s : State) : List Byte := s.output

/-- The diagnostic port (R56). -/
def State.diagnosticPort (s : State) : Option Report := s.report

/-- One emitted value as the host renders it (R183): unsigned decimal, then a line end. The rule does not say which
characters end a line; that it is one line feed is the model's choice (log 22 [DESIGN CHOICE, unsafe]). -/
def renderValue (v : Byte) : String := toString v.toNat ++ "\n"

/-- The text of the whole output, one line per PRN (R183). -/
def State.renderOutput (s : State) : String := String.join (s.output.map renderValue)

end Sys2Proof.Machine
end

