-- ==== Sys2Proof/Machine/Step.lean ====
section
/-! DEFINITION. One tick (R120, R128), and the host's way to place an instruction where it is fetched next. -/

namespace Sys2Proof.Machine

/-- One tick: Fetch, Decode, Execute, Advance (R120 to R127). An error of Fetch or Decode is taken as R251 says. -/
def step (s : State) : Host.Outcome State Fault Refusal :=
  match s.status with
  | .running =>
    match s.fetchDecode with
    | .ok i => exec i s
    | .error st => .next (s.raise st)
  | .halted => .next s.idle
  | .illegal _ => .next s.idle
  | .fault _ => .next s.idle

/-- `s` with the instruction stored at PC, PC + 1 and PC + 2, where the next fetch reads, and status RUNNING, without
which a tick fetches nothing (log 13 [DESIGN CHOICE, safe]). -/
def State.withFetchWord (s : State) (nbits w : Nat) : State :=
  { s.pokeAll s.pc (tableBytes nbits w) with status := .running }

end Sys2Proof.Machine
end

