-- ==== Sys2Proof/Safety.lean ====
section
/-! DEFINITION. What counts as the end of a run and as a legal state, in the terms the statements use. -/

namespace Sys2Proof.Machine

/-- The core runs, and the three reads of its next fetch are inside memory (R121). -/
abbrev State.CanFetch (s : State) : Prop := s.status = .running ∧ s.pc + 2 < s.cfg.memSize

/-- The byte at an offset from PC: the opcode, operand A, operand B (R98). -/
abbrev State.byteAt (s : State) (k : Nat) : Byte := Memory.read s.mem (s.pc + k)

/-- The run has ended (R127, R300). -/
abbrev State.Final (s : State) : Prop := s.status ≠ .running

/-- The run has ended normally (R300). -/
abbrev State.EndedNormally (s : State) : Prop := s.status = .halted

/-- A status that is an error: ILLEGAL or FAULT (R263). -/
def Status.isError : Status → Bool
  | .running => false
  | .halted => false
  | .illegal _ => true
  | .fault _ => true

/-- `Status.isError` as a proposition. -/
abbrev Status.IsError (st : Status) : Prop := st.isError = true

/-- The run has ended in error (R300). -/
abbrev State.EndedInError (s : State) : Prop := s.status.IsError

/-- The state after one tick; a tick of this model always answers a next state. -/
def State.tick (s : State) : State :=
  match step s with
  | .next t => t
  | .fault _ => s
  | .refused _ => s

/-- The state after `n` ticks. -/
def State.ticks (s : State) : Nat → State
  | 0 => s
  | n + 1 => s.tick.ticks n

/-- The run from `s` ends at its `n`-th tick: the first after which status is not RUNNING (R300). -/
abbrev State.EndsAt (s : State) (n : Nat) : Prop :=
  (s.ticks n).status ≠ .running ∧ ∀ k, k < n → (s.ticks k).status = .running

/-- A hang: status stays RUNNING for ever (R300). -/
def State.Hangs (s : State) : Prop := ∀ n, (s.ticks n).status = .running

/-- The report and the status agree: an error has its report, with the PC of the instruction, which the error has left
in PC; otherwise there is none (R251, R263). -/
abbrev State.ReportMatches (s : State) : Prop :=
  (s.status.IsError → s.report = some { status := s.status, pc := s.pc }) ∧ (¬ s.status.IsError → s.report = none)

/-- The legal states: admissible parameters (R6, R94), memory in canonical form and inside MEM_SIZE (R60), FL with at
most one flag (R39), PC at most 256 (R130), and a report that matches the status (R263). -/
abbrev State.Legal (s : State) : Prop :=
  s.cfg.Admissible ∧ Memory.wf s.mem ∧ Memory.below s.cfg.memSize s.mem ∧ legalFl s.fl ∧ s.pc ≤ 256 ∧ s.ReportMatches

end Sys2Proof.Machine
end

