-- ==== Sys2Proof/Certificates/Slice0/Obligations.lean ====
section
/-! DEFINITION. The statements for the provers, one definition each, from the numbered rules of spec/. -/

open Sys2Proof Sys2Proof.Machine

/-! ## Reset and load -/

/-- R46, R47, R49 (and R48): reset, from any state and under any configuration, leaves PC 0, FL 0, SP at SP_INIT, R0 to
R6 at REG_INIT, status RUNNING and no output or report. The default SP_INIT is 0xF4. The last two clauses are the
model's, not a rule's: that a reset leaves memory to the load that follows is an inference (log 20 [DEDUCED, safe]), and that
the configuration is carried in State and kept is the model's choice (log 3 [DESIGN CHOICE, safe]). -/
def Obligations.ResetRestoresTheCore : Prop :=
  Config.default.spInit = 0xF4 ∧
  ∀ s : State,
    s.hostReset.pc = 0 ∧ s.hostReset.fl = 0 ∧ s.hostReset.regs[7] = s.cfg.spInit ∧
    (∀ (i : Nat) (h : i < 7), s.hostReset.regs[i] = s.cfg.regInit[i]) ∧
    s.hostReset.status = .running ∧ s.hostReset.output = [] ∧ s.hostReset.report = none ∧
    s.hostReset.mem = s.mem ∧ s.hostReset.cfg = s.cfg

/-- The default machine right after reset. The default parameters are the spec's own defaults (R6); that this model
starts from them is log 1 [DESIGN CHOICE, unsafe], log 2 [DESIGN CHOICE, unsafe] and log 4 [DESIGN CHOICE, unsafe]. -/
def Obligations.DefaultResetState : Prop :=
  State.reset.pc = 0 ∧ State.reset.fl = 0 ∧ State.reset.regs[7] = 0xF4 ∧ State.reset.status = .running ∧
  State.reset.output = [] ∧ State.reset.report = none ∧ State.reset.cfg.memSize = 256

/-- R50: after reset and load, memory holds the image at 0 .. n - 1 and MEM_INIT elsewhere, and the load has changed
nothing else. -/
def Obligations.LoadPlacesTheImage : Prop :=
  ∀ (c : Config) (image : List Byte), image.length ≤ c.memSize →
    (∀ (a : Nat) (h : a < image.length), Memory.read (State.launch c image).mem a = image[a]) ∧
    (∀ a : Nat, image.length ≤ a → Memory.read (State.launch c image).mem a = Memory.read c.memInit a) ∧
    State.launch c image = { State.resetWith c with mem := (State.launch c image).mem }

/-! ## Encoding -/

/-- Decoding an encoded instruction gives it back: for every admissible map, every instruction with every operand byte,
and whatever two bytes follow it in memory (R91, R94, R96, R101). -/
def Obligations.DecodeOfEncodeGivesTheInstruction : Prop :=
  ∀ (m : OpcodeMap) (i : Instr) (x y : Byte), m.Admissible → decodeBytes m (encode m i ++ [x, y]) = .ok i

/-- Encoding a decoded instruction gives back its bytes, as many as its opcode's bits 7:6 say (R90, R93, R97, R98). -/
def Obligations.EncodeOfDecodeGivesTheBytes : Prop :=
  ∀ (m : OpcodeMap) (op a b : Byte) (i : Instr), m.Admissible → decode m op a b = .ok i →
    encode m i = [op, a, b].take (1 + op.toNat / 64) ∧ op.toNat / 64 ≤ 2

/-- R102's count: under every admissible map exactly 243 opcode bytes are unknown, all with bits 7:6 = 11 among them. -/
def Obligations.Exactly243OpcodesAreUnknown : Prop :=
  ∀ m : OpcodeMap, m.Admissible →
    ((List.range 256).filter (fun n => (m.lookup (BitVec.ofNat 8 n)).isNone)).length = 243 ∧
    ∀ op : Byte, op.toNat / 64 = 3 → m.lookup op = none

/-- A few words, written out from R95's table and the formats of R91, decode to the instructions they stand for. -/
def Obligations.SpecWordsDecode : Prop :=
  decodeBytes OpcodeMap.default [0x01, 0xFF, 0xFF] = .ok .hlt ∧
  decodeBytes OpcodeMap.default [0x99, 0x03, 0xFF] = .ok (.ldi 3 255) ∧
  decodeBytes OpcodeMap.default [0x43, 0x07, 0xFF] = .ok (.prn 7) ∧
  decodeBytes OpcodeMap.default [0xA8, 0x00, 0x01] = .ok (.add 0 1) ∧
  decodeBytes OpcodeMap.default [0xA0, 0x03, 0x05] = .ok (.cmp 3 5) ∧
  decodeBytes OpcodeMap.default [0x4D, 0x05, 0x00] = .ok (.push 5) ∧
  decodeBytes OpcodeMap.default [0x52, 0x03, 0x00] = .ok (.jne 3) ∧
  decodeBytes OpcodeMap.default [0x00, 0x00, 0x00] = .error (.unknown (.unknownOpcode 0))

/-! ## The tick -/

/-- R120, R121, R123, R124: when the core runs and the three bytes at PC lie in memory and decode to `i`, the tick is
`exec i`, which holds both the Execute and the Advance step. -/
def Obligations.StepRunsTheDecodedInstruction : Prop :=
  ∀ (s : State) (i : Instr), s.CanFetch →
    decode s.cfg.opcodes (s.byteAt 0) (s.byteAt 1) (s.byteAt 2) = .ok i → step s = exec i s

/-- R121, R254, R258: a fetch that leaves memory raises MemoryFault with the first address outside, before Decode. -/
def Obligations.FetchOutsideMemoryFaults : Prop :=
  ∀ s : State, s.status = .running → s.cfg.memSize ≤ s.pc + 2 →
    step s = .next (s.raise (.fault (.memoryFault
      (if s.cfg.memSize ≤ s.pc then s.pc else if s.cfg.memSize ≤ s.pc + 1 then s.pc + 1 else s.pc + 2))))

/-- R253: an opcode that no instruction has ends the tick with ILLEGAL(op), code 1, recording the opcode; the report is
produced and nothing else changes, PC included. -/
def Obligations.UnknownOpcodeStopsTheCore : Prop :=
  ∀ s : State, s.CanFetch → (∀ k : Mnemonic, s.cfg.opcodes.code k ≠ s.byteAt 0) →
    step s = .next { s with
      status := .illegal (s.byteAt 0)
      report := some { status := .illegal (s.byteAt 0), pc := s.pc } } ∧
    (Status.illegal (s.byteAt 0)).code = some 1 ∧ (Status.illegal (s.byteAt 0)).recorded = some (s.byteAt 0).toNat

/-- R127, first sentence: a tick in a state that is not RUNNING changes nothing. That such a tick answers the same state,
and is no stop, is the model's choice (log 8 [DESIGN CHOICE, safe]). -/
def Obligations.StoppedTickChangesNothing : Prop :=
  ∀ s : State, s.Final → step s = .next s

/-- Every tick, in every state, answers a next state: the model neither faults nor refuses. Errors are statuses of the
machine (R250, R251); that they are next states of the host's interface is the model's inference (log 7 [DEDUCED, safe]), and that a
stopped core's tick answers a next state is the model's choice (log 8 [DESIGN CHOICE, safe]), R127 saying also that a model has no step there. -/
def Obligations.EveryTickAnswersANextState : Prop :=
  ∀ s : State, ∃ t, step s = .next t

/-- R127's first sentence, R262: once the core has stopped, any number of ticks leaves its whole state as it is. That
these ticks answer the same state, and are no stop of the run function, is the model's choice (log 8 [DESIGN CHOICE, safe]): R127's second
sentence says that a model has no step from such a state. -/
def Obligations.StoppedCoreStaysStopped : Prop :=
  ∀ (s : State) (n : Nat), s.Final → Host.Core.run Sys2Proof.core n s = .next s ∧ s.ticks n = s

/-! ## What each instruction does -/

/-- R180: HLT halts and PC advances by 1, in every state. -/
def Obligations.HltHaltsAndAdvances : Prop :=
  ∀ s : State, exec .hlt s = .next { s with status := .halted, pc := s.pc + 1 }

/-- R181: LDI puts the immediate, any byte, into the register; PC + 3. R7 is a register like the others (R34). -/
def Obligations.LdiLoadsTheImmediate : Prop :=
  ∀ (s : State) (a imm : Byte) (ha : a.toNat < 8),
    exec (.ldi a imm) s = .next { s with regs := s.regs.set a.toNat imm, pc := s.pc + 3 }

/-- R182: PRN appends the register's value to the output stream; PC + 2. -/
def Obligations.PrnEmitsTheRegister : Prop :=
  ∀ (s : State) (a : Byte) (ha : a.toNat < 8),
    exec (.prn a) s = .next { s with output := s.output ++ [s.regs[a.toNat]], pc := s.pc + 2 }

/-- R154, R151: ADD writes the sum modulo 256 into register A; FL and everything else is unchanged; PC + 3. -/
def Obligations.AddWritesTheSumModulo256 : Prop :=
  ∀ (s : State) (a b : Byte) (ha : a.toNat < 8) (hb : b.toNat < 8),
    exec (.add a b) s = .next { s with
      regs := s.regs.set a.toNat (BitVec.ofNat 8 ((s.regs[a.toNat].toNat + s.regs[b.toNat].toNat) % 256))
      pc := s.pc + 3 }

/-- R155, R151: MUL writes the low 8 bits of the product into register A; PC + 3. -/
def Obligations.MulWritesTheProductModulo256 : Prop :=
  ∀ (s : State) (a b : Byte) (ha : a.toNat < 8) (hb : b.toNat < 8),
    exec (.mul a b) s = .next { s with
      regs := s.regs.set a.toNat (BitVec.ofNat 8 ((s.regs[a.toNat].toNat * s.regs[b.toNat].toNat) % 256))
      pc := s.pc + 3 }

/-- R156, R152: CMP writes all of FL, L, G or E by the unsigned order, whatever FL held; PC + 3. -/
def Obligations.CmpWritesTheUnsignedOrder : Prop :=
  ∀ (s : State) (a b : Byte) (ha : a.toNat < 8) (hb : b.toNat < 8),
    exec (.cmp a b) s = .next { s with
      fl := if s.regs[a.toNat].toNat < s.regs[b.toNat].toNat then 0b00000100
            else if s.regs[b.toNat].toNat < s.regs[a.toNat].toNat then 0b00000010
            else 0b00000001
      pc := s.pc + 3 }

/-- R203, R201: PUSH decrements SP and stores the register, read AFTER the decrement, at the new SP; PC + 2. It
completes whenever 1 <= SP and SP - 1 < MEM_SIZE. PUSH R7 stores the decremented SP. -/
def Obligations.PushStoresBelowSp : Prop :=
  ∀ (s : State) (a : Byte) (ha : a.toNat < 8),
    1 ≤ s.regs[7].toNat → s.regs[7].toNat - 1 < s.cfg.memSize →
    ∃ t, exec (.push a) s = .next t ∧
      t.regs = s.regs.set 7 (BitVec.ofNat 8 (s.regs[7].toNat - 1)) ∧
      Memory.read t.mem (s.regs[7].toNat - 1) = t.regs[a.toNat] ∧
      (∀ x, x ≠ s.regs[7].toNat - 1 → Memory.read t.mem x = Memory.read s.mem x) ∧
      t.pc = s.pc + 2 ∧ t.fl = s.fl ∧ t.status = s.status ∧ t.output = s.output ∧ t.report = s.report ∧ t.cfg = s.cfg

/-- R204, R202, for a register other than R7: POP loads the byte at SP and increments SP; memory keeps it; PC + 2. It
completes whenever SP < MEM_SIZE and SP <= 254, from an empty stack too. -/
def Obligations.PopLoadsAndIncrementsSp : Prop :=
  ∀ (s : State) (a : Byte) (ha : a.toNat < 7),
    s.regs[7].toNat < s.cfg.memSize → s.regs[7].toNat ≤ 254 →
    exec (.pop a) s = .next { s with
      regs := (s.regs.set a.toNat (Memory.read s.mem s.regs[7].toNat)).set 7
        (BitVec.ofNat 8 (s.regs[7].toNat + 1))
      pc := s.pc + 2 }

/-- R204's pseudocode for R7: POP R7 leaves R7 = v + 1 for the popped byte v, whenever SP < MEM_SIZE and v <= 254. That
it completes at SP = 255 too is the model's inference (log 9 [DEDUCED, unsafe]): R204's list of exceptions and R257 name SP = 255
without sparing r = 7. -/
def Obligations.PopOfSpLeavesThePoppedBytePlusOne : Prop :=
  ∀ s : State, s.regs[7].toNat < s.cfg.memSize → (Memory.read s.mem s.regs[7].toNat).toNat ≤ 254 →
    exec (.pop 7) s = .next { s with
      regs := s.regs.set 7 (BitVec.ofNat 8 ((Memory.read s.mem s.regs[7].toNat).toNat + 1))
      pc := s.pc + 2 }

/-- R220: CALL pushes pc + 2 and jumps to the register, read AFTER the push (CALL R7 goes to the new SP). It completes
whenever 1 <= SP and SP - 1 < MEM_SIZE. PC + 2 fits the byte whenever the CALL was fetched
(R122); that its low 8 bits are pushed in a state no fetch leads to is the model's choice (log 10 [DESIGN CHOICE, safe]). -/
def Obligations.CallPushesTheReturnAddress : Prop :=
  ∀ (s : State) (a : Byte) (ha : a.toNat < 8),
    1 ≤ s.regs[7].toNat → s.regs[7].toNat - 1 < s.cfg.memSize →
    ∃ t, exec (.call a) s = .next t ∧
      t.regs = s.regs.set 7 (BitVec.ofNat 8 (s.regs[7].toNat - 1)) ∧
      Memory.read t.mem (s.regs[7].toNat - 1) = BitVec.ofNat 8 (s.pc + 2) ∧
      (s.pc + 2 < s.cfg.memSize → s.cfg.memSize ≤ 256 →
        (Memory.read t.mem (s.regs[7].toNat - 1)).toNat = s.pc + 2) ∧
      (∀ x, x ≠ s.regs[7].toNat - 1 → Memory.read t.mem x = Memory.read s.mem x) ∧
      t.pc = t.regs[a.toNat].toNat ∧
      t.fl = s.fl ∧ t.status = s.status ∧ t.output = s.output ∧ t.report = s.report ∧ t.cfg = s.cfg

/-- R221: RET pops a byte into PC. It completes whenever SP < MEM_SIZE and SP <= 254. -/
def Obligations.RetPopsThePc : Prop :=
  ∀ s : State, s.regs[7].toNat < s.cfg.memSize → s.regs[7].toNat ≤ 254 →
    exec .ret s = .next { s with
      regs := s.regs.set 7 (BitVec.ofNat 8 (s.regs[7].toNat + 1))
      pc := (Memory.read s.mem s.regs[7].toNat).toNat }

/-- R222: JMP sets PC to the register's value and changes nothing else. -/
def Obligations.JmpSetsThePc : Prop :=
  ∀ (s : State) (a : Byte) (ha : a.toNat < 8),
    exec (.jmp a) s = .next { s with pc := s.regs[a.toNat].toNat }

/-- R223: JEQ jumps exactly when bit E of FL is 1, and otherwise advances by 2. -/
def Obligations.JeqJumpsWhenEIsSet : Prop :=
  ∀ (s : State) (a : Byte) (ha : a.toNat < 8),
    exec (.jeq a) s = .next { s with
      pc := if s.fl.getLsbD 0 = true then s.regs[a.toNat].toNat else s.pc + 2 }

/-- R224: JNE jumps exactly when bit E of FL is 0, and otherwise advances by 2. -/
def Obligations.JneJumpsWhenEIsClear : Prop :=
  ∀ (s : State) (a : Byte) (ha : a.toNat < 8),
    exec (.jne a) s = .next { s with
      pc := if s.fl.getLsbD 0 = false then s.regs[a.toNat].toNat else s.pc + 2 }

/-! ## Errors -/

/-- R255: a register operand byte of 8 or more raises RegisterIndexFault, A before B, in every state (so before any
stack check, and whether or not a jump would be taken); operand bytes an instruction does not use are not looked at. -/
def Obligations.RegisterByteOfEightOrMoreFaults : Prop :=
  (∀ (s : State) (a b : Byte) (i : Instr), 8 ≤ a.toNat →
    i ∈ [Instr.ldi a b, .prn a, .add a b, .mul a b, .cmp a b, .push a, .pop a, .call a, .jmp a, .jeq a, .jne a] →
    exec i s = .next (s.raise (.fault (.registerIndexFault a)))) ∧
  (∀ (s : State) (a b : Byte) (i : Instr), a.toNat < 8 → 8 ≤ b.toNat →
    i ∈ [Instr.add a b, .mul a b, .cmp a b] →
    exec i s = .next (s.raise (.fault (.registerIndexFault b)))) ∧
  (∀ (m : OpcodeMap) (op a b a' b' : Byte) (i : Instr), decode m op a b = .ok i →
    (i.mnemonic.operandCount = 1 → decode m op a b' = .ok i) ∧
    (i.mnemonic.operandCount = 0 → decode m op a' b' = .ok i))

/-- R256: PUSH and CALL with SP = 0 raise StackOverflow. -/
def Obligations.PushAtZeroOverflows : Prop :=
  ∀ (s : State) (a : Byte) (i : Instr), a.toNat < 8 → s.regs[7] = 0 → i = .push a ∨ i = .call a →
    exec i s = .next (s.raise (.fault .stackOverflow))

/-- R257, R204, R221: an increment that would make SP 256 raises StackUnderflow: for RET, and for POP into another
register, SP = 255; for POP R7, a popped byte of 255, whatever SP is, which is the model's
inference where R204 and R257 name SP = 255 without sparing r = 7 (log 9 [DEDUCED, unsafe]). -/
def Obligations.PopPast255Underflows : Prop :=
  (∀ (s : State) (a : Byte) (i : Instr), a.toNat < 7 → s.regs[7] = 255 → 255 < s.cfg.memSize →
    i = .pop a ∨ i = .ret → exec i s = .next (s.raise (.fault .stackUnderflow))) ∧
  (∀ s : State, s.regs[7].toNat < s.cfg.memSize → Memory.read s.mem s.regs[7].toNat = 255 →
    exec (.pop 7) s = .next (s.raise (.fault .stackUnderflow)))

/-- R254, R258: a stack access outside memory raises MemoryFault with its address: PUSH and CALL at SP - 1 once SP is
not 0, POP and RET at SP, before the underflow check. -/
def Obligations.StackAccessOutsideMemoryFaults : Prop :=
  (∀ (s : State) (a : Byte) (i : Instr), a.toNat < 8 → s.regs[7] ≠ 0 → s.cfg.memSize ≤ s.regs[7].toNat - 1 →
    i = .push a ∨ i = .call a → exec i s = .next (s.raise (.fault (.memoryFault (s.regs[7].toNat - 1))))) ∧
  (∀ (s : State) (a : Byte) (i : Instr), a.toNat < 8 → s.cfg.memSize ≤ s.regs[7].toNat →
    i = .pop a ∨ i = .ret → exec i s = .next (s.raise (.fault (.memoryFault s.regs[7].toNat))))

/-- R251: errors are precise. A tick of the running core that ends in an error has changed the status and produced the
report, with the PC of the instruction, and nothing else; and after it no tick has an effect. That such a later tick
answers the same state, and is no stop, is the model's choice (log 8 [DESIGN CHOICE, safe]). -/
def Obligations.ErrorsArePrecise : Prop :=
  ∀ s t : State, s.status = .running → step s = .next t → t.status.IsError →
    t = { s with status := t.status, report := some { status := t.status, pc := s.pc } } ∧ step t = .next t

/-! ## Invariants and whole-machine rules -/

/-- Every tick keeps the legal states: admissible parameters, memory in canonical form and inside MEM_SIZE (R60), at
most one flag (R39), PC at most 256 (R130), a report that matches the status (R263). -/
def Obligations.EveryTickKeepsLegalStates : Prop :=
  ∀ s t : State, s.Legal → step s = .next t → t.Legal

/-- The state after reset is legal. -/
def Obligations.ResetStateIsLegal : Prop := State.reset.Legal

/-- Every launch of an admissible configuration gives a legal state (R290, R291, R6). R291 asks that an image have at
most MEM_SIZE bytes; that a longer one is legal too, its bytes past the end dropped, is the model's choice (log 11 [DESIGN CHOICE, unsafe]). -/
def Obligations.LaunchStatesAreLegal : Prop :=
  ∀ (c : Config) (image : List Byte), c.Admissible → (State.launch c image).Legal

/-- R39: at most one flag at any time; FL is 0 at reset and stays so until a CMP; after a CMP exactly one flag is 1. -/
def Obligations.AtMostOneFlagIsSet : Prop :=
  (∀ c : Config, (State.resetWith c).fl = 0) ∧
  (∀ s t : State, legalFl s.fl → step s = .next t → legalFl t.fl) ∧
  (∀ (s t : State) (i : Instr), i.mnemonic ≠ .cmp → exec i s = .next t → t.fl = s.fl) ∧
  (∀ (s : State) (a b : Byte), a.toNat < 8 → b.toNat < 8 →
    ∃ t, exec (.cmp a b) s = .next t ∧ t.flagL.toNat + t.flagG.toNat + t.flagE.toNat = 1)

/-- R38, whole machine: a tick that changes FL is a CMP's. -/
def Obligations.OnlyCmpChangesFl : Prop :=
  ∀ s t : State, step s = .next t → t.fl ≠ s.fl → ∃ a b : Byte, s.fetchDecode = .ok (.cmp a b)

/-- R38: no instruction reads L or G, or any bit of FL but E. Two states that differ in FL only, with the same E, do the
same: the results differ in FL at most, and there only where FL was left as it was. -/
def Obligations.OnlyFlagEIsRead : Prop :=
  ∀ (i : Instr) (s t : State) (f : Byte), f.getLsbD 0 = s.fl.getLsbD 0 → exec i s = .next t →
    ∃ u, exec i { s with fl := f } = .next u ∧ u = { t with fl := u.fl } ∧
      (u.fl = t.fl ∨ (u.fl = f ∧ t.fl = s.fl))

/-- R41, R182, whole machine: a tick leaves the output stream as it was, or is a PRN's, which appends one value. -/
def Obligations.OnlyPrnAppendsOutput : Prop :=
  ∀ s t : State, step s = .next t →
    t.output = s.output ∨
    ∃ (a : Byte) (ha : a.toNat < 8), s.fetchDecode = .ok (.prn a) ∧ t.output = s.output ++ [s.regs[a.toNat]]

/-- R64, R295, whole machine: a tick that changes any byte of memory is a PUSH's or a CALL's, and the byte is the one
below SP. -/
def Obligations.OnlyPushAndCallWriteMemory : Prop :=
  ∀ (s t : State) (x : Nat), step s = .next t → Memory.read t.mem x ≠ Memory.read s.mem x →
    (∃ a : Byte, s.fetchDecode = .ok (.push a) ∨ s.fetchDecode = .ok (.call a)) ∧ x + 1 = s.regs[7].toNat

/-- R180, R126, whole machine: a running core comes to HALTED only by a HLT, and PC is then the HLT's address + 1. -/
def Obligations.OnlyHltHalts : Prop :=
  ∀ s t : State, s.status = .running → step s = .next t → t.status = .halted →
    s.fetchDecode = .ok .hlt ∧ t = { s with status := .halted, pc := s.pc + 1 }

/-- R125: an instruction that has not set PC advances it by 1 + bits 7:6 of the opcode that was fetched, which under an
admissible map is the instruction's length. -/
def Obligations.AdvanceIsOnePlusTheOperandBits : Prop :=
  ∀ (s t : State) (op a b : Byte) (i : Instr), s.cfg.opcodes.Admissible → decode s.cfg.opcodes op a b = .ok i →
    s.status = .running → exec i s = .next t → ¬ t.status.IsError →
    (i.mnemonic ∈ [Mnemonic.hlt, .ldi, .prn, .add, .mul, .cmp, .push, .pop] ∨
      (i.mnemonic = .jeq ∧ s.fl.getLsbD 0 = false) ∨ (i.mnemonic = .jne ∧ s.fl.getLsbD 0 = true)) →
    t.pc = s.pc + 1 + op.toNat / 64

/-- R6, R45: no tick changes the configuration. That the configuration is carried in State is log 3 [DESIGN CHOICE, safe]. -/
def Obligations.NoTickChangesTheConfiguration : Prop :=
  ∀ s t : State, step s = .next t → t.cfg = s.cfg

/-- R74, R295: a byte that PUSH stores is what the next fetch from its address reads as the opcode. -/
def Obligations.FetchSeesThePushedByte : Prop :=
  ∀ (s : State) (a : Byte) (ha : a.toNat < 8), 1 ≤ s.regs[7].toNat → s.regs[7].toNat + 1 < s.cfg.memSize →
    ∃ t, exec (.push a) s = .next t ∧
      ∃ x y : Byte, State.fetch { t with pc := s.regs[7].toNat - 1 } = .ok (t.regs[a.toNat], x, y)

/-- R205: PUSH then POP of the same register restores every register; for a register other than R7 the cell below SP
then holds its value; PUSH R7 stores SP - 1 at SP - 1 and leaves SP there. -/
def Obligations.PushThenPopRoundTrips : Prop :=
  ∀ (s : State) (a : Byte) (ha : a.toNat < 8),
    1 ≤ s.regs[7].toNat → s.regs[7].toNat ≤ s.cfg.memSize →
    ∃ t u, exec (.push a) s = .next t ∧ exec (.pop a) t = .next u ∧
      u.regs = s.regs ∧ u.status = s.status ∧
      (a.toNat ≠ 7 → Memory.read u.mem (s.regs[7].toNat - 1) = s.regs[a.toNat]) ∧
      (a.toNat = 7 → (Memory.read t.mem (s.regs[7].toNat - 1)).toNat = s.regs[7].toNat - 1 ∧
        t.regs[7].toNat = s.regs[7].toNat - 1)

/-- R225: a CALL at p with, at its target, a RET: two ticks leave PC = p + 2 and every register as before the CALL, SP
among them, with no fault, whenever 1 <= SP, SP - 1 < MEM_SIZE and the RET can be fetched. The CALL leaves SP <= 254. -/
def Obligations.CallThenRetReturns : Prop :=
  ∀ (s : State) (a : Byte), s.cfg.Admissible → a.toNat < 8 → s.CanFetch →
    decode s.cfg.opcodes (s.byteAt 0) (s.byteAt 1) (s.byteAt 2) = .ok (.call a) →
    1 ≤ s.regs[7].toNat → s.regs[7].toNat - 1 < s.cfg.memSize →
    ∃ t, step s = .next t ∧ t.status = .running ∧ t.regs[7].toNat ≤ 254 ∧
      (t.pc + 2 < s.cfg.memSize → decode s.cfg.opcodes (t.byteAt 0) (t.byteAt 1) (t.byteAt 2) = .ok .ret →
        ∃ u, step t = .next u ∧ u.pc = s.pc + 2 ∧ u.regs = s.regs ∧ u.status = .running)

/-- R222, R300: a JMP to its own address is a hang: the status stays RUNNING for ever. -/
def Obligations.JumpToItselfHangs : Prop :=
  ∀ (s : State) (a : Byte) (ha : a.toNat < 8), s.CanFetch →
    decode s.cfg.opcodes (s.byteAt 0) (s.byteAt 1) (s.byteAt 2) = .ok (.jmp a) →
    s.regs[a.toNat].toNat = s.pc → s.Hangs ∧ ∀ n, s.ticks n = s

/-! ## The ALU and the memory port -/

/-- R151: the ALU's arithmetic is modulo 256. -/
def Obligations.AluArithmeticIsModulo256 : Prop :=
  ∀ x y : Byte,
    (aluAdd x y).toNat = (x.toNat + y.toNat) % 256 ∧ (aluMul x y).toNat = (x.toNat * y.toNat) % 256 ∧
    (aluInc x).toNat = (x.toNat + 1) % 256 ∧ (aluDec x).toNat = (x.toNat + 255) % 256

/-- R152: the comparison is unsigned, and its three cases are exhaustive and exclusive. -/
def Obligations.ComparisonIsUnsigned : Prop :=
  ∀ x y : Byte,
    (aluCmp x y = .less ↔ x.toNat < y.toNat) ∧ (aluCmp x y = .greater ↔ y.toNat < x.toNat) ∧
    (aluCmp x y = .equal ↔ x = y)

/-- R62, R63: the memory port. A read inside memory gives the cell, a write inside memory sets it and nothing else, and
either outside raises MemoryFault with the address. -/
def Obligations.MemoryPortReadsAndWrites : Prop :=
  ∀ (s : State) (a : Nat) (v : Byte),
    (a < s.cfg.memSize →
      s.memRead a = .ok (Memory.read s.mem a) ∧
      ∃ t, s.memWrite a v = .ok t ∧ Memory.read t.mem a = v ∧
        (∀ x, x ≠ a → Memory.read t.mem x = Memory.read s.mem x) ∧ t = { s with mem := t.mem }) ∧
    (s.cfg.memSize ≤ a →
      s.memRead a = .error (.memoryFault a) ∧ s.memWrite a v = .error (.memoryFault a))

/-! ## Frames: what an instruction leaves unchanged, on every operand byte, the erring ones too -/

/-- LDI, ADD, MUL: only register A and PC change; on an error only status and report. -/
def Obligations.RegisterWritesFrame : Prop :=
  ∀ (s t : State) (a b : Byte) (i : Instr), i = .ldi a b ∨ i = .add a b ∨ i = .mul a b → exec i s = .next t →
    (∀ (r : Nat) (h : r < 8), r ≠ a.toNat → t.regs[r] = s.regs[r]) ∧
    (∀ x, Memory.read t.mem x = Memory.read s.mem x) ∧
    t.fl = s.fl ∧ t.output = s.output ∧ t.cfg = s.cfg ∧
    ((t.status = s.status ∧ t.report = s.report) ∨ ∃ k, t = s.raise (.fault k))

/-- CMP: only FL and PC change; on an error only status and report. -/
def Obligations.CompareFrame : Prop :=
  ∀ (s t : State) (a b : Byte), exec (.cmp a b) s = .next t →
    t.regs = s.regs ∧ (∀ x, Memory.read t.mem x = Memory.read s.mem x) ∧ t.output = s.output ∧ t.cfg = s.cfg ∧
    ((t.status = s.status ∧ t.report = s.report) ∨ ∃ k, t = s.raise (.fault k))

/-- PRN changes only the output stream and PC, HLT only the status and PC; on an error only status and report. -/
def Obligations.OutputAndHaltFrame : Prop :=
  ∀ (s t : State) (a : Byte) (i : Instr), i = .prn a ∨ i = .hlt → exec i s = .next t →
    t.regs = s.regs ∧ (∀ x, Memory.read t.mem x = Memory.read s.mem x) ∧ t.fl = s.fl ∧ t.cfg = s.cfg ∧
    (i = .hlt → t.output = s.output) ∧
    ((t.report = s.report ∧ (i = .prn a → t.status = s.status)) ∨ ∃ k, t = s.raise (.fault k))

/-- JMP, JEQ, JNE: only PC changes; on an error only status and report. -/
def Obligations.JumpFrame : Prop :=
  ∀ (s t : State) (a : Byte) (i : Instr), i = .jmp a ∨ i = .jeq a ∨ i = .jne a → exec i s = .next t →
    t.regs = s.regs ∧ (∀ x, Memory.read t.mem x = Memory.read s.mem x) ∧ t.fl = s.fl ∧ t.output = s.output ∧
    t.cfg = s.cfg ∧
    ((t.status = s.status ∧ t.report = s.report) ∨ ∃ k, t = s.raise (.fault k))

/-- PUSH, CALL: only SP, PC and the one byte at the decremented SP change; on an error only status and report. -/
def Obligations.StoringFrame : Prop :=
  ∀ (s t : State) (a : Byte) (i : Instr), i = .push a ∨ i = .call a → exec i s = .next t →
    (∀ (r : Nat) (h : r < 8), r ≠ 7 → t.regs[r] = s.regs[r]) ∧
    (∀ addr, s.decSp.sp.toNat = addr → ∀ x, x ≠ addr → Memory.read t.mem x = Memory.read s.mem x) ∧
    t.fl = s.fl ∧ t.output = s.output ∧ t.cfg = s.cfg ∧
    ((t.status = s.status ∧ t.report = s.report) ∨ ∃ k, t = s.raise (.fault k))

/-- POP changes only its register, SP and PC, RET only SP and PC; on an error only status and report. -/
def Obligations.PoppingFrame : Prop :=
  ∀ (s t : State) (a : Byte) (i : Instr), i = .pop a ∨ i = .ret → exec i s = .next t →
    (∀ (r : Nat) (h : r < 8), r ≠ 7 → (i = .pop a → r ≠ a.toNat) → t.regs[r] = s.regs[r]) ∧
    (∀ x, Memory.read t.mem x = Memory.read s.mem x) ∧
    t.fl = s.fl ∧ t.output = s.output ∧ t.cfg = s.cfg ∧
    ((t.status = s.status ∧ t.report = s.report) ∨ ∃ k, t = s.raise (.fault k))
end

