-- ==== Sys2Proof/Laws/Decoding.lean ====
section
/-! SUPPORT. The small facts about the opcode map and the formats that the encoding statements rest on. -/

namespace Sys2Proof

theorem Mnemonic.mem_all (k : Mnemonic) : k ∈ Mnemonic.all := by cases k <;> decide

theorem Mnemonic.operandCount_le (k : Mnemonic) : k.operandCount ≤ 2 := by cases k <;> decide

/-- The field NN as a quotient. -/
theorem operandBits_eq (op : Byte) : operandBits op = op.toNat / 64 := by
  have := op.isLt
  simp [operandBits, Nat.shiftRight_eq_div_pow]
  omega

@[simp] theorem Instr.ofParts_mnemonic (k : Mnemonic) (a b : Byte) : (Instr.ofParts k a b).mnemonic = k := by
  cases k <;> rfl

/-- The operand bytes of a selected instruction are the first of the fetched operand bytes, as many as its count. -/
theorem Instr.ofParts_operands (k : Mnemonic) (a b : Byte) :
    (Instr.ofParts k a b).operands = [a, b].take k.operandCount := by
  cases k <;> rfl

theorem Instr.operands_length (i : Instr) : i.operands.length = i.mnemonic.operandCount := by
  cases i <;> rfl

/-- Under an admissible map two instructions with the same opcode are the same (R94). -/
theorem OpcodeMap.code_inj {m : OpcodeMap} (hm : m.Admissible) {k j : Mnemonic} (h : m.code k = m.code j) : k = j :=
  List.inj_on_of_nodup_map hm.1 (Mnemonic.mem_all k) (Mnemonic.mem_all j) h

/-- Bits 7:6 of an instruction's opcode hold its operand count (R94). -/
theorem OpcodeMap.operandBits_code {m : OpcodeMap} (hm : m.Admissible) (k : Mnemonic) :
    operandBits (m.code k) = k.operandCount :=
  hm.2 k (Mnemonic.mem_all k)

/-- A byte that the lookup gives an instruction is that instruction's opcode, under any map. -/
theorem OpcodeMap.code_of_lookup {m : OpcodeMap} {op : Byte} {k : Mnemonic} (h : m.lookup op = some k) :
    m.code k = op := by
  simpa using List.find?_some h

/-- The lookup finds an instruction by its opcode (R96). -/
theorem OpcodeMap.lookup_code {m : OpcodeMap} (hm : m.Admissible) (k : Mnemonic) : m.lookup (m.code k) = some k := by
  cases h : m.lookup (m.code k) with
  | some j => rw [OpcodeMap.code_inj hm (OpcodeMap.code_of_lookup h)]
  | none =>
    have := List.find?_eq_none.1 h k (Mnemonic.mem_all k)
    simp at this

theorem decode_of_lookup {m : OpcodeMap} {op : Byte} {k : Mnemonic} (h : m.lookup op = some k) (a b : Byte) :
    decode m op a b = .ok (Instr.ofParts k a b) := by
  unfold decode; rw [h]

theorem decode_of_unknown {m : OpcodeMap} {op : Byte} (h : m.lookup op = none) (a b : Byte) :
    decode m op a b = .error (.unknownOpcode op) := by
  unfold decode; rw [h]

/-- What Decode has found when it answers an instruction. -/
theorem decode_eq_ok {m : OpcodeMap} {op a b : Byte} {i : Instr} (h : decode m op a b = .ok i) :
    ∃ k, m.lookup op = some k ∧ i = Instr.ofParts k a b := by
  unfold decode at h
  split at h
  case h_1 k hk => cases h; exact ⟨k, hk, rfl⟩
  case h_2 => cases h

end Sys2Proof
end

