-- ==== Sys2Proof/Laws/Memory.lean ====
section
/-! SUPPORT. The laws of the memory array: read after write, for EVERY list of cells, and that a write keeps the
canonical form and the bound. -/

namespace Sys2Proof.Machine

@[simp] theorem Memory.read_nil (a : Nat) : Memory.read [] a = Memory.unlisted := rfl

theorem Memory.read_cons (k : Nat) (v : Byte) (m : Memory) (a : Nat) :
    Memory.read ((k, v) :: m) a = if k = a then v else Memory.read m a := rfl

theorem Memory.erase_cons_self (a : Nat) (v : Byte) (m : Memory) :
    Memory.erase ((a, v) :: m) a = Memory.erase m a := by
  simp [Memory.erase]

theorem Memory.erase_cons_ne {k a : Nat} (v : Byte) (m : Memory) (h : k ≠ a) :
    Memory.erase ((k, v) :: m) a = (k, v) :: Memory.erase m a := by
  simp [Memory.erase, h]

/-- An erased cell reads as an unlisted one. -/
theorem Memory.read_erase_self (m : Memory) (a : Nat) : Memory.read (m.erase a) a = Memory.unlisted := by
  induction m with
  | nil => rfl
  | cons c m ih =>
    obtain ⟨k, v⟩ := c
    by_cases h : k = a
    · subst h; rw [Memory.erase_cons_self, ih]
    · rw [Memory.erase_cons_ne v m h, Memory.read_cons, if_neg h, ih]

/-- Erasing a cell leaves every other cell. -/
theorem Memory.read_erase_ne (m : Memory) {a b : Nat} (h : b ≠ a) :
    Memory.read (m.erase a) b = Memory.read m b := by
  induction m with
  | nil => rfl
  | cons c m ih =>
    obtain ⟨k, v⟩ := c
    by_cases hk : k = a
    · subst hk; rw [Memory.erase_cons_self, ih, Memory.read_cons, if_neg (Ne.symm h)]
    · rw [Memory.erase_cons_ne v m hk, Memory.read_cons, Memory.read_cons, ih]

/-- A placed entry is read, where no entry for its cell stands before it. -/
theorem Memory.read_place_self (m : Memory) (a : Nat) (v : Byte) (h : ∀ c ∈ m, c.1 ≠ a) :
    Memory.read (Memory.place a v m) a = v := by
  induction m with
  | nil => simp [Memory.place, Memory.read]
  | cons c m ih =>
    obtain ⟨k, w⟩ := c
    have hk : k ≠ a := h (k, w) (by simp)
    unfold Memory.place
    split
    · simp [Memory.read]
    · rw [Memory.read_cons, if_neg hk]
      exact ih (fun c hc => h c (by simp [hc]))

/-- Placing an entry leaves every other cell. -/
theorem Memory.read_place_ne (m : Memory) {a b : Nat} (v : Byte) (h : b ≠ a) :
    Memory.read (Memory.place a v m) b = Memory.read m b := by
  induction m with
  | nil => simp [Memory.place, Memory.read, Ne.symm h]
  | cons c m ih =>
    obtain ⟨k, w⟩ := c
    unfold Memory.place
    split
    · rw [Memory.read_cons, if_neg (Ne.symm h)]
    · rw [Memory.read_cons, Memory.read_cons, ih]

theorem Memory.mem_erase {m : Memory} {a : Nat} {c : Host.Cell} : c ∈ m.erase a ↔ c ∈ m ∧ c.1 ≠ a := by
  simp [Memory.erase]

theorem Memory.mem_place {m : Memory} {a : Nat} {v : Byte} {c : Host.Cell} :
    c ∈ Memory.place a v m ↔ c = (a, v) ∨ c ∈ m := by
  induction m with
  | nil => simp [Memory.place]
  | cons d m ih =>
    obtain ⟨k, w⟩ := d
    unfold Memory.place
    split
    · simp
    · simp [ih, or_left_comm]

/-- READ AFTER WRITE, same cell (R63, R70), for every list of cells. -/
@[simp] theorem Memory.read_write_self (m : Memory) (a : Nat) (v : Byte) :
    Memory.read (m.write a v) a = v := by
  unfold Memory.write
  split
  case isTrue h => rw [Memory.read_erase_self, h]
  case isFalse => exact Memory.read_place_self _ _ _ (fun c hc => (Memory.mem_erase.1 hc).2)

/-- READ AFTER WRITE, another cell (R63), for every list of cells. -/
theorem Memory.read_write_ne (m : Memory) {a b : Nat} (v : Byte) (h : b ≠ a) :
    Memory.read (m.write a v) b = Memory.read m b := by
  unfold Memory.write
  split
  · exact Memory.read_erase_ne m h
  · rw [Memory.read_place_ne _ v h, Memory.read_erase_ne m h]

/-- The two read-after-write laws as one equation. -/
theorem Memory.read_write (m : Memory) (a b : Nat) (v : Byte) :
    Memory.read (m.write a v) b = if b = a then v else Memory.read m b := by
  split
  case isTrue h => rw [h, Memory.read_write_self]
  case isFalse h => exact Memory.read_write_ne m v h

theorem Memory.place_pairwise (m : Memory) (a : Nat) (v : Byte)
    (h : m.Pairwise (fun x y => x.1 < y.1)) (ha : ∀ c ∈ m, c.1 ≠ a) :
    (Memory.place a v m).Pairwise (fun x y => x.1 < y.1) := by
  induction m with
  | nil => simp [Memory.place]
  | cons c m ih =>
    obtain ⟨k, w⟩ := c
    have hk : k ≠ a := ha (k, w) (by simp)
    rw [List.pairwise_cons] at h
    unfold Memory.place
    split
    case isTrue hlt =>
      refine List.pairwise_cons.2 ⟨?_, List.pairwise_cons.2 h⟩
      intro d hd
      rcases List.mem_cons.1 hd with rfl | hd
      · exact hlt
      · exact Nat.lt_trans hlt (h.1 d hd)
    case isFalse hge =>
      refine List.pairwise_cons.2 ⟨?_, ih h.2 (fun d hd => ha d (by simp [hd]))⟩
      intro d hd
      rcases Memory.mem_place.1 hd with rfl | hd
      · show k < a
        omega
      · exact h.1 d hd

/-- The empty memory is in canonical form. -/
theorem Memory.wf_nil : Memory.wf [] := by simp [Memory.wf]

/-- A write keeps the canonical form. -/
theorem Memory.write_wf (m : Memory) (a : Nat) (v : Byte) (h : m.wf) : (m.write a v).wf := by
  obtain ⟨hp, hv⟩ := h
  have hpe : (m.erase a).Pairwise (fun x y => x.1 < y.1) := hp.filter _
  have hve : ∀ c ∈ m.erase a, c.2 ≠ Memory.unlisted := fun c hc => hv c (Memory.mem_erase.1 hc).1
  unfold Memory.write
  split
  · exact ⟨hpe, hve⟩
  case isFalse hne =>
    refine ⟨Memory.place_pairwise _ a v hpe (fun c hc => (Memory.mem_erase.1 hc).2), fun c hc => ?_⟩
    rcases Memory.mem_place.1 hc with rfl | hc
    · exact hne
    · exact hve c hc

/-- A write inside the bound keeps every listed cell inside it. -/
theorem Memory.write_below (m : Memory) (size a : Nat) (v : Byte) (h : m.below size) (ha : a < size) :
    (m.write a v).below size := by
  intro c hc
  unfold Memory.write at hc
  split at hc
  · exact h c (Memory.mem_erase.1 hc).1
  · rcases Memory.mem_place.1 hc with rfl | hc
    · exact ha
    · exact h c (Memory.mem_erase.1 hc).1

end Sys2Proof.Machine
end

