-- ==== Sys2Proof/Laws/State.lean ====
section
/-! SUPPORT. What every field of State holds after each named update: one lemma per field per update, true by
unfolding, so that no later proof unfolds a record update. Then what a register read gives after each update. -/

namespace Sys2Proof.Machine

variable (s : State)

@[simp] theorem State.setReg_cfg (i : Fin 8) (v : Byte) : (s.setReg i v).cfg = s.cfg := rfl
@[simp] theorem State.setReg_regs (i : Fin 8) (v : Byte) : (s.setReg i v).regs = s.regs.set i.val v := rfl
@[simp] theorem State.setReg_pc (i : Fin 8) (v : Byte) : (s.setReg i v).pc = s.pc := rfl
@[simp] theorem State.setReg_fl (i : Fin 8) (v : Byte) : (s.setReg i v).fl = s.fl := rfl
@[simp] theorem State.setReg_status (i : Fin 8) (v : Byte) : (s.setReg i v).status = s.status := rfl
@[simp] theorem State.setReg_output (i : Fin 8) (v : Byte) : (s.setReg i v).output = s.output := rfl
@[simp] theorem State.setReg_report (i : Fin 8) (v : Byte) : (s.setReg i v).report = s.report := rfl
@[simp] theorem State.setReg_mem (i : Fin 8) (v : Byte) : (s.setReg i v).mem = s.mem := rfl

@[simp] theorem State.setSp_cfg (v : Byte) : (s.setSp v).cfg = s.cfg := rfl
@[simp] theorem State.setSp_regs (v : Byte) : (s.setSp v).regs = s.regs.set 7 v := rfl
@[simp] theorem State.setSp_pc (v : Byte) : (s.setSp v).pc = s.pc := rfl
@[simp] theorem State.setSp_fl (v : Byte) : (s.setSp v).fl = s.fl := rfl
@[simp] theorem State.setSp_status (v : Byte) : (s.setSp v).status = s.status := rfl
@[simp] theorem State.setSp_output (v : Byte) : (s.setSp v).output = s.output := rfl
@[simp] theorem State.setSp_report (v : Byte) : (s.setSp v).report = s.report := rfl
@[simp] theorem State.setSp_mem (v : Byte) : (s.setSp v).mem = s.mem := rfl

@[simp] theorem State.decSp_cfg : (s.decSp).cfg = s.cfg := rfl
@[simp] theorem State.decSp_regs : (s.decSp).regs = s.regs.set 7 (s.sp - 1) := rfl
@[simp] theorem State.decSp_pc : (s.decSp).pc = s.pc := rfl
@[simp] theorem State.decSp_fl : (s.decSp).fl = s.fl := rfl
@[simp] theorem State.decSp_status : (s.decSp).status = s.status := rfl
@[simp] theorem State.decSp_output : (s.decSp).output = s.output := rfl
@[simp] theorem State.decSp_report : (s.decSp).report = s.report := rfl
@[simp] theorem State.decSp_mem : (s.decSp).mem = s.mem := rfl

@[simp] theorem State.emit_cfg (v : Byte) : (s.emit v).cfg = s.cfg := rfl
@[simp] theorem State.emit_regs (v : Byte) : (s.emit v).regs = s.regs := rfl
@[simp] theorem State.emit_pc (v : Byte) : (s.emit v).pc = s.pc := rfl
@[simp] theorem State.emit_fl (v : Byte) : (s.emit v).fl = s.fl := rfl
@[simp] theorem State.emit_status (v : Byte) : (s.emit v).status = s.status := rfl
@[simp] theorem State.emit_output (v : Byte) : (s.emit v).output = s.output ++ [v] := rfl
@[simp] theorem State.emit_report (v : Byte) : (s.emit v).report = s.report := rfl
@[simp] theorem State.emit_mem (v : Byte) : (s.emit v).mem = s.mem := rfl

@[simp] theorem State.halt_cfg : (s.halt).cfg = s.cfg := rfl
@[simp] theorem State.halt_regs : (s.halt).regs = s.regs := rfl
@[simp] theorem State.halt_pc : (s.halt).pc = s.pc := rfl
@[simp] theorem State.halt_fl : (s.halt).fl = s.fl := rfl
@[simp] theorem State.halt_status : (s.halt).status = .halted := rfl
@[simp] theorem State.halt_output : (s.halt).output = s.output := rfl
@[simp] theorem State.halt_report : (s.halt).report = s.report := rfl
@[simp] theorem State.halt_mem : (s.halt).mem = s.mem := rfl

@[simp] theorem State.advance_cfg (k : Mnemonic) : (s.advance k).cfg = s.cfg := rfl
@[simp] theorem State.advance_regs (k : Mnemonic) : (s.advance k).regs = s.regs := rfl
@[simp] theorem State.advance_pc (k : Mnemonic) : (s.advance k).pc = s.pc + 1 + k.operandCount := rfl
@[simp] theorem State.advance_fl (k : Mnemonic) : (s.advance k).fl = s.fl := rfl
@[simp] theorem State.advance_status (k : Mnemonic) : (s.advance k).status = s.status := rfl
@[simp] theorem State.advance_output (k : Mnemonic) : (s.advance k).output = s.output := rfl
@[simp] theorem State.advance_report (k : Mnemonic) : (s.advance k).report = s.report := rfl
@[simp] theorem State.advance_mem (k : Mnemonic) : (s.advance k).mem = s.mem := rfl

@[simp] theorem State.jumpTo_cfg (v : Byte) : (s.jumpTo v).cfg = s.cfg := rfl
@[simp] theorem State.jumpTo_regs (v : Byte) : (s.jumpTo v).regs = s.regs := rfl
@[simp] theorem State.jumpTo_pc (v : Byte) : (s.jumpTo v).pc = v.toNat := rfl
@[simp] theorem State.jumpTo_fl (v : Byte) : (s.jumpTo v).fl = s.fl := rfl
@[simp] theorem State.jumpTo_status (v : Byte) : (s.jumpTo v).status = s.status := rfl
@[simp] theorem State.jumpTo_output (v : Byte) : (s.jumpTo v).output = s.output := rfl
@[simp] theorem State.jumpTo_report (v : Byte) : (s.jumpTo v).report = s.report := rfl
@[simp] theorem State.jumpTo_mem (v : Byte) : (s.jumpTo v).mem = s.mem := rfl

@[simp] theorem State.setFl_cfg (v : Byte) : (s.setFl v).cfg = s.cfg := rfl
@[simp] theorem State.setFl_regs (v : Byte) : (s.setFl v).regs = s.regs := rfl
@[simp] theorem State.setFl_pc (v : Byte) : (s.setFl v).pc = s.pc := rfl
@[simp] theorem State.setFl_fl (v : Byte) : (s.setFl v).fl = v := rfl
@[simp] theorem State.setFl_status (v : Byte) : (s.setFl v).status = s.status := rfl
@[simp] theorem State.setFl_output (v : Byte) : (s.setFl v).output = s.output := rfl
@[simp] theorem State.setFl_report (v : Byte) : (s.setFl v).report = s.report := rfl
@[simp] theorem State.setFl_mem (v : Byte) : (s.setFl v).mem = s.mem := rfl

@[simp] theorem State.raise_cfg (st : Status) : (s.raise st).cfg = s.cfg := rfl
@[simp] theorem State.raise_regs (st : Status) : (s.raise st).regs = s.regs := rfl
@[simp] theorem State.raise_pc (st : Status) : (s.raise st).pc = s.pc := rfl
@[simp] theorem State.raise_fl (st : Status) : (s.raise st).fl = s.fl := rfl
@[simp] theorem State.raise_status (st : Status) : (s.raise st).status = st := rfl
@[simp] theorem State.raise_output (st : Status) : (s.raise st).output = s.output := rfl
@[simp] theorem State.raise_report (st : Status) : (s.raise st).report = some { status := st, pc := s.pc } := rfl
@[simp] theorem State.raise_mem (st : Status) : (s.raise st).mem = s.mem := rfl

@[simp] theorem State.emit_reg (v : Byte) (r : Fin 8) : (s.emit v).reg r = s.reg r := rfl
@[simp] theorem State.emit_sp (v : Byte) : (s.emit v).sp = s.sp := rfl
@[simp] theorem State.halt_reg (r : Fin 8) : (s.halt).reg r = s.reg r := rfl
@[simp] theorem State.halt_sp : (s.halt).sp = s.sp := rfl
@[simp] theorem State.advance_reg (k : Mnemonic) (r : Fin 8) : (s.advance k).reg r = s.reg r := rfl
@[simp] theorem State.advance_sp (k : Mnemonic) : (s.advance k).sp = s.sp := rfl
@[simp] theorem State.jumpTo_reg (v : Byte) (r : Fin 8) : (s.jumpTo v).reg r = s.reg r := rfl
@[simp] theorem State.jumpTo_sp (v : Byte) : (s.jumpTo v).sp = s.sp := rfl
@[simp] theorem State.setFl_reg (v : Byte) (r : Fin 8) : (s.setFl v).reg r = s.reg r := rfl
@[simp] theorem State.setFl_sp (v : Byte) : (s.setFl v).sp = s.sp := rfl
@[simp] theorem State.raise_reg (st : Status) (r : Fin 8) : (s.raise st).reg r = s.reg r := rfl
@[simp] theorem State.raise_sp (st : Status) : (s.raise st).sp = s.sp := rfl

/-- A register reads back what was written to it. -/
@[simp] theorem State.setReg_reg_self (i : Fin 8) (v : Byte) : (s.setReg i v).reg i = v := by
  simp [State.setReg, State.reg]

/-- Writing one register leaves every other register. -/
theorem State.setReg_reg_ne (i r : Fin 8) (v : Byte) (h : r ≠ i) : (s.setReg i v).reg r = s.reg r := by
  have h' : i.val ≠ r.val := fun e => h (Fin.ext e.symm)
  simp [State.setReg, State.reg, h']

@[simp] theorem State.setSp_sp (v : Byte) : (s.setSp v).sp = v := s.setReg_reg_self 7 v

@[simp] theorem State.decSp_sp : s.decSp.sp = s.sp - 1 := s.setSp_sp _

@[simp] theorem Status.isError_running : Status.running.isError = false := rfl
@[simp] theorem Status.isError_halted : Status.halted.isError = false := rfl
@[simp] theorem Status.isError_illegal (op : Byte) : (Status.illegal op).isError = true := rfl
@[simp] theorem Status.isError_fault (k : FaultKind) : (Status.fault k).isError = true := rfl

/-- The two ways of writing a register read agree. -/
theorem State.reg_eq (r : Fin 8) : s.reg r = s.regs[r.val] := rfl

theorem State.sp_eq : s.sp = s.regs[7] := rfl

/-- Reset with the default parameters is reset under the default configuration. -/
theorem State.reset_eq : State.reset = State.resetWith Config.default := rfl

/-- A launch is a reset and then a load. -/
theorem State.launch_eq (c : Config) (image : List Byte) :
    State.launch c image = (State.resetWith c).load image := rfl

end Sys2Proof.Machine
end

