-- ==== Sys2Proof/Laws/Ops.lean ====
section
/-! SUPPORT. One lemma per outcome of each shared operation, so that proofs cite these and unfold nothing. -/

namespace Sys2Proof.Machine

/-! Operands. -/

/-- R100, the byte that names a register. -/
theorem regIndex_of_lt {b : Byte} (h : b.toNat < 8) : regIndex b = .ok ⟨b.toNat, h⟩ := by
  unfold regIndex; rw [dif_pos h]

/-- R100, the byte that names none. -/
theorem regIndex_of_ge {b : Byte} (h : 8 ≤ b.toNat) : regIndex b = .error (.registerIndexFault b) := by
  unfold regIndex; rw [dif_neg (Nat.not_lt.2 h)]

/-- What `reg(b)` answers when it answers a register. -/
theorem regIndex_eq_ok {b : Byte} {r : Fin 8} (h : regIndex b = .ok r) : b.toNat < 8 ∧ r.val = b.toNat := by
  by_cases hb : b.toNat < 8
  · rw [regIndex_of_lt hb] at h
    cases h
    exact ⟨hb, rfl⟩
  · rw [regIndex_of_ge (Nat.not_lt.1 hb)] at h
    cases h

/-! Memory accesses. -/

theorem State.memRead_of_lt {s : State} {a : Nat} (h : a < s.cfg.memSize) :
    s.memRead a = .ok (Memory.read s.mem a) := by
  unfold State.memRead; rw [if_pos h]

theorem State.memRead_of_ge {s : State} {a : Nat} (h : s.cfg.memSize ≤ a) :
    s.memRead a = .error (.memoryFault a) := by
  unfold State.memRead; rw [if_neg (Nat.not_lt.2 h)]

theorem State.memWrite_of_lt {s : State} {a : Nat} (v : Byte) (h : a < s.cfg.memSize) :
    s.memWrite a v = .ok { s with mem := Memory.write s.mem a v } := by
  unfold State.memWrite; rw [if_pos h]

theorem State.memWrite_of_ge {s : State} {a : Nat} (v : Byte) (h : s.cfg.memSize ≤ a) :
    s.memWrite a v = .error (.memoryFault a) := by
  unfold State.memWrite; rw [if_neg (Nat.not_lt.2 h)]

/-- What a write answers when it answers a state. -/
theorem State.memWrite_eq_ok {s t : State} {a : Nat} {v : Byte} (h : s.memWrite a v = .ok t) :
    a < s.cfg.memSize ∧ t = { s with mem := Memory.write s.mem a v } := by
  by_cases ha : a < s.cfg.memSize
  · rw [State.memWrite_of_lt v ha] at h
    cases h
    exact ⟨ha, rfl⟩
  · rw [State.memWrite_of_ge v (Nat.not_lt.1 ha)] at h
    cases h

/-! The end of Execute. -/

@[simp] theorem State.settle_ok (s t : State) : s.settle (.ok t) = .next t := rfl

@[simp] theorem State.settle_error (s : State) (k : FaultKind) :
    s.settle (.error k) = .next (s.raise (.fault k)) := rfl

/-- Execute always ends in a next state. -/
theorem State.settle_total (s : State) (r : Except FaultKind State) : ∃ t, s.settle r = .next t := by
  cases r <;> exact ⟨_, rfl⟩

/-- All that the end of Execute can answer. -/
theorem State.settle_next {s t : State} {r : Except FaultKind State} (h : s.settle r = .next t) :
    r = .ok t ∨ ∃ k, r = .error k ∧ t = s.raise (.fault k) := by
  cases r with
  | ok u => cases h; exact .inl rfl
  | error k => cases h; exact .inr ⟨k, rfl, rfl⟩

/-! Sequencing of checks. -/

@[simp] theorem except_ok_bind {ε α β : Type} (a : α) (f : α → Except ε β) : (Except.ok a >>= f) = f a := rfl

@[simp] theorem except_error_bind {ε α β : Type} (e : ε) (f : α → Except ε β) :
    (Except.error e >>= f) = Except.error e := rfl

/-- A sequence that answers a value has a first part that answers one. -/
theorem except_bind_ok {ε α β : Type} {x : Except ε α} {f : α → Except ε β} {b : β} (h : (x >>= f) = .ok b) :
    ∃ a, x = .ok a ∧ f a = .ok b := by
  cases x with
  | ok a => exact ⟨a, rfl, h⟩
  | error e => cases h

/-! The stack checks. -/

theorem State.pushCheck_overflow {s : State} (h : s.sp = 0) : s.pushCheck = .error .stackOverflow := by
  unfold State.pushCheck; rw [if_pos h]

theorem State.pushCheck_memoryFault {s : State} (h : s.sp ≠ 0) (hm : s.cfg.memSize ≤ s.sp.toNat - 1) :
    s.pushCheck = .error (.memoryFault (s.sp.toNat - 1)) := by
  unfold State.pushCheck; rw [if_neg h, if_pos hm]

theorem State.pushCheck_ok {s : State} (h : s.sp ≠ 0) (hm : s.sp.toNat - 1 < s.cfg.memSize) :
    s.pushCheck = .ok () := by
  unfold State.pushCheck; rw [if_neg h, if_neg (Nat.not_le.2 hm)]

/-- What a push has established once its checks pass. -/
theorem State.pushCheck_eq_ok {s : State} {u : Unit} (h : s.pushCheck = .ok u) :
    s.sp ≠ 0 ∧ s.sp.toNat - 1 < s.cfg.memSize := by
  unfold State.pushCheck at h
  split at h
  · cases h
  · split at h
    · cases h
    · exact ⟨by assumption, by omega⟩

/-- The decremented SP as a number. -/
theorem State.decSp_toNat {s : State} (h : s.sp ≠ 0) : s.decSp.sp.toNat = s.sp.toNat - 1 := by
  rw [State.decSp_sp]
  have : s.sp.toNat ≠ 0 := fun e => h (by simpa using BitVec.eq_of_toNat_eq (y := 0#8) (by simpa using e))
  have := s.sp.isLt
  rw [BitVec.toNat_sub]
  simp
  omega

theorem popCheck_ok {n : Nat} (h : n ≤ 255) : popCheck n = .ok () := by
  unfold popCheck; rw [if_neg (Nat.not_lt.2 h)]

theorem popCheck_underflow {n : Nat} (h : 255 < n) : popCheck n = .error .stackUnderflow := by
  unfold popCheck; rw [if_pos h]

theorem popCheck_eq_ok {n : Nat} {u : Unit} (h : popCheck n = .ok u) : n ≤ 255 := by
  unfold popCheck at h
  split at h
  · cases h
  · omega

/-! The ALU. -/

@[simp] theorem State.putResult_value (s : State) (r : Fin 8) (v : Byte) :
    s.putResult r (.value v) = s.setReg r v := rfl

@[simp] theorem State.putResult_comparison (s : State) (r : Fin 8) (c : Comparison) :
    s.putResult r (.comparison c) = s.setFl (flOf c) := rfl

/-- FL after a comparison holds exactly one flag. -/
theorem flOf_legal (c : Comparison) : legalFl (flOf c) := by cases c <;> decide

end Sys2Proof.Machine
end

