-- ==== Sys2Proof/Laws/Exec.lean ====
section
/-! SUPPORT. Said once: everything an instruction can do, and everything a tick can do. Invariants and frames follow
from these two inversion lemmas without unfolding a meaning. -/

namespace Sys2Proof.Machine

/-- The state an instruction leaves when none of its checks raises. -/
def Completes (i : Instr) (s t : State) : Prop :=
  match i with
  | .hlt => t = s.halt.advance .hlt
  | .ldi a imm => ∃ r, regIndex a = .ok r ∧ t = (s.setReg r imm).advance .ldi
  | .prn a => ∃ r, regIndex a = .ok r ∧ t = (s.emit (s.reg r)).advance .prn
  | .add a b => ∃ r q, regIndex a = .ok r ∧ regIndex b = .ok q ∧
      t = (s.setReg r (aluAdd (s.reg r) (s.reg q))).advance .add
  | .mul a b => ∃ r q, regIndex a = .ok r ∧ regIndex b = .ok q ∧
      t = (s.setReg r (aluMul (s.reg r) (s.reg q))).advance .mul
  | .cmp a b => ∃ r q, regIndex a = .ok r ∧ regIndex b = .ok q ∧
      t = (s.setFl (flOf (aluCmp (s.reg r) (s.reg q)))).advance .cmp
  | .push a => ∃ r u, regIndex a = .ok r ∧ s.pushCheck = .ok () ∧
      s.decSp.memWrite s.decSp.sp.toNat (s.decSp.reg r) = .ok u ∧ t = u.advance .push
  | .pop a => ∃ r v, regIndex a = .ok r ∧ s.popRead = .ok v ∧
      popCheck ((if r = 7 then v else s.sp).toNat + 1) = .ok () ∧
      t = ((s.setReg r v).setSp (BitVec.ofNat 8 ((if r = 7 then v else s.sp).toNat + 1))).advance .pop
  | .call a => ∃ r u, regIndex a = .ok r ∧ s.pushCheck = .ok () ∧
      s.decSp.memWrite s.decSp.sp.toNat (BitVec.ofNat 8 (s.pc + 2)) = .ok u ∧ t = u.jumpTo (u.reg r)
  | .ret => ∃ v, s.popRead = .ok v ∧ popCheck (s.sp.toNat + 1) = .ok () ∧ t = (s.setSp (s.sp + 1)).jumpTo v
  | .jmp a => ∃ r, regIndex a = .ok r ∧ t = s.jumpTo (s.reg r)
  | .jeq a => ∃ r, regIndex a = .ok r ∧ t = if s.flagE then s.jumpTo (s.reg r) else s.advance .jeq
  | .jne a => ∃ r, regIndex a = .ok r ∧ t = if s.flagE then s.advance .jne else s.jumpTo (s.reg r)

/-- EVERYTHING AN INSTRUCTION CAN DO: complete, or take an error and change nothing else (R124, R251). -/
theorem exec_cases {i : Instr} {s t : State} (h : exec i s = .next t) :
    Completes i s t ∨ ∃ k, t = s.raise (.fault k) := by
  cases i with
  | hlt => cases h; exact .inl rfl
  | ldi a imm =>
    rcases State.settle_next h with h | ⟨k, -, rfl⟩
    · obtain ⟨r, hr, h⟩ := except_bind_ok h
      cases h; exact .inl ⟨r, hr, rfl⟩
    · exact .inr ⟨k, rfl⟩
  | prn a =>
    rcases State.settle_next h with h | ⟨k, -, rfl⟩
    · obtain ⟨r, hr, h⟩ := except_bind_ok h
      cases h; exact .inl ⟨r, hr, rfl⟩
    · exact .inr ⟨k, rfl⟩
  | add a b =>
    rcases State.settle_next h with h | ⟨k, -, rfl⟩
    · obtain ⟨r, hr, h⟩ := except_bind_ok h
      obtain ⟨q, hq, h⟩ := except_bind_ok h
      cases h; exact .inl ⟨r, q, hr, hq, rfl⟩
    · exact .inr ⟨k, rfl⟩
  | mul a b =>
    rcases State.settle_next h with h | ⟨k, -, rfl⟩
    · obtain ⟨r, hr, h⟩ := except_bind_ok h
      obtain ⟨q, hq, h⟩ := except_bind_ok h
      cases h; exact .inl ⟨r, q, hr, hq, rfl⟩
    · exact .inr ⟨k, rfl⟩
  | cmp a b =>
    rcases State.settle_next h with h | ⟨k, -, rfl⟩
    · obtain ⟨r, hr, h⟩ := except_bind_ok h
      obtain ⟨q, hq, h⟩ := except_bind_ok h
      cases h; exact .inl ⟨r, q, hr, hq, rfl⟩
    · exact .inr ⟨k, rfl⟩
  | push a =>
    rcases State.settle_next h with h | ⟨k, -, rfl⟩
    · obtain ⟨r, hr, h⟩ := except_bind_ok h
      obtain ⟨w, hp, h⟩ := except_bind_ok h
      obtain ⟨u, hu, h⟩ := except_bind_ok h
      cases h; exact .inl ⟨r, u, hr, hp, hu, rfl⟩
    · exact .inr ⟨k, rfl⟩
  | pop a =>
    rcases State.settle_next h with h | ⟨k, -, rfl⟩
    · obtain ⟨r, hr, h⟩ := except_bind_ok h
      obtain ⟨v, hv, h⟩ := except_bind_ok h
      obtain ⟨w, hc, h⟩ := except_bind_ok h
      cases h; exact .inl ⟨r, v, hr, hv, hc, rfl⟩
    · exact .inr ⟨k, rfl⟩
  | call a =>
    rcases State.settle_next h with h | ⟨k, -, rfl⟩
    · obtain ⟨r, hr, h⟩ := except_bind_ok h
      obtain ⟨w, hp, h⟩ := except_bind_ok h
      obtain ⟨u, hu, h⟩ := except_bind_ok h
      cases h; exact .inl ⟨r, u, hr, hp, hu, rfl⟩
    · exact .inr ⟨k, rfl⟩
  | ret =>
    rcases State.settle_next h with h | ⟨k, -, rfl⟩
    · obtain ⟨v, hv, h⟩ := except_bind_ok h
      obtain ⟨w, hc, h⟩ := except_bind_ok h
      cases h; exact .inl ⟨v, hv, hc, rfl⟩
    · exact .inr ⟨k, rfl⟩
  | jmp a =>
    rcases State.settle_next h with h | ⟨k, -, rfl⟩
    · obtain ⟨r, hr, h⟩ := except_bind_ok h
      cases h; exact .inl ⟨r, hr, rfl⟩
    · exact .inr ⟨k, rfl⟩
  | jeq a =>
    rcases State.settle_next h with h | ⟨k, -, rfl⟩
    · obtain ⟨r, hr, h⟩ := except_bind_ok h
      cases h; exact .inl ⟨r, hr, rfl⟩
    · exact .inr ⟨k, rfl⟩
  | jne a =>
    rcases State.settle_next h with h | ⟨k, -, rfl⟩
    · obtain ⟨r, hr, h⟩ := except_bind_ok h
      cases h; exact .inl ⟨r, hr, rfl⟩
    · exact .inr ⟨k, rfl⟩

/-- A fetch inside memory answers the three bytes at PC. -/
theorem State.fetch_of_canFetch {s : State} (h : s.pc + 2 < s.cfg.memSize) :
    s.fetch = .ok (Memory.read s.mem s.pc, Memory.read s.mem (s.pc + 1), Memory.read s.mem (s.pc + 2)) := by
  unfold State.fetch
  rw [State.memRead_of_lt (by omega), State.memRead_of_lt (by omega), State.memRead_of_lt h]
  rfl

/-- A fetch that answers bytes was inside memory, and they are the bytes at PC. -/
theorem State.fetch_eq_ok {s : State} {p : Byte × Byte × Byte} (h : s.fetch = .ok p) :
    s.pc + 2 < s.cfg.memSize ∧
      p = (Memory.read s.mem s.pc, Memory.read s.mem (s.pc + 1), Memory.read s.mem (s.pc + 2)) := by
  have hb : s.pc + 2 < s.cfg.memSize := by
    unfold State.fetch at h
    obtain ⟨x, -, h⟩ := except_bind_ok h
    obtain ⟨y, -, h⟩ := except_bind_ok h
    obtain ⟨z, hz, -⟩ := except_bind_ok h
    by_contra hb
    rw [State.memRead_of_ge (Nat.not_lt.1 hb)] at hz
    cases hz
  refine ⟨hb, ?_⟩
  rw [State.fetch_of_canFetch hb] at h
  exact (Except.ok.inj h).symm

/-- Fetch and Decode answer an instruction exactly when the bytes at PC exist and decode to it. -/
theorem State.fetchDecode_eq_ok {s : State} {i : Instr} :
    s.fetchDecode = .ok i ↔ s.pc + 2 < s.cfg.memSize ∧
      decode s.cfg.opcodes (Memory.read s.mem s.pc) (Memory.read s.mem (s.pc + 1)) (Memory.read s.mem (s.pc + 2))
        = .ok i := by
  constructor
  · intro h
    unfold State.fetchDecode at h
    split at h
    · cases h
    case h_2 op a b hf =>
      obtain ⟨hb, hp⟩ := State.fetch_eq_ok hf
      cases hp
      refine ⟨hb, ?_⟩
      split at h
      case h_1 j hd => cases h; exact hd
      case h_2 => cases h
  · rintro ⟨hb, hd⟩
    unfold State.fetchDecode
    rw [State.fetch_of_canFetch hb]
    simp only [hd]

/-- The errors of Fetch and Decode are errors. -/
theorem State.fetchDecode_error_isError {s : State} {st : Status} (h : s.fetchDecode = .error st) : st.IsError := by
  unfold State.fetchDecode at h
  split at h
  · cases h; rfl
  · split at h
    · cases h
    · cases h; rfl

/-- A running core runs the instruction it decodes. -/
theorem step_of_ok {s : State} {i : Instr} (hr : s.status = .running) (h : s.fetchDecode = .ok i) :
    step s = exec i s := by
  unfold step; rw [hr, h]

/-- A running core takes the error of its Fetch or Decode. -/
theorem step_of_error {s : State} {st : Status} (hr : s.status = .running) (h : s.fetchDecode = .error st) :
    step s = .next (s.raise st) := by
  unfold step; rw [hr, h]

/-- EVERYTHING A TICK CAN DO: nothing, because the core is stopped; an instruction; or an error and nothing else. -/
theorem step_cases {s t : State} (h : step s = .next t) :
    (s.status ≠ .running ∧ t = s) ∨
    (s.status = .running ∧ ∃ i, s.fetchDecode = .ok i ∧ Completes i s t) ∨
    (s.status = .running ∧ ∃ st : Status, st.IsError ∧ t = s.raise st) := by
  by_cases hr : s.status = .running
  · cases hf : s.fetchDecode with
    | ok i =>
      rw [step_of_ok hr hf] at h
      rcases exec_cases h with hc | ⟨k, rfl⟩
      · exact .inr (.inl ⟨hr, i, rfl, hc⟩)
      · exact .inr (.inr ⟨hr, .fault k, rfl, rfl⟩)
    | error st =>
      rw [step_of_error hr hf] at h
      cases h
      exact .inr (.inr ⟨hr, st, State.fetchDecode_error_isError hf, rfl⟩)
  · refine .inl ⟨hr, ?_⟩
    unfold step State.idle at h
    split at h
    case h_1 hs => exact absurd hs hr
    all_goals cases h; rfl

end Sys2Proof.Machine
end

