-- ==== Sys2Proof/Laws/Launch.lean ====
section
/-! SUPPORT. What the load port leaves alone, and that every operation that writes memory keeps its canonical form and
its bound. -/

namespace Sys2Proof.Machine

/-- A poke inside memory sets the cell. -/
theorem State.poke_of_lt {s : State} {a : Nat} (v : Byte) (h : a < s.cfg.memSize) :
    s.poke a v = { s with mem := Memory.write s.mem a v } := by
  unfold State.poke; rw [if_pos h]

/-- A poke outside memory does nothing. -/
theorem State.poke_of_ge {s : State} {a : Nat} (v : Byte) (h : s.cfg.memSize ≤ a) : s.poke a v = s := by
  unfold State.poke; rw [if_neg (Nat.not_lt.2 h)]

/-- A poke changes memory at most. -/
theorem State.poke_eq (s : State) (a : Nat) (v : Byte) : s.poke a v = { s with mem := (s.poke a v).mem } := by
  unfold State.poke; split <;> rfl

/-- A list of pokes changes memory at most. -/
theorem State.pokeAll_eq (s : State) (a : Nat) (image : List Byte) :
    s.pokeAll a image = { s with mem := (s.pokeAll a image).mem } := by
  induction image generalizing s a with
  | nil => rfl
  | cons b rest ih =>
    refine (ih (s.poke a b) (a + 1)).trans ?_
    show _ = { s with mem := ((s.poke a b).pokeAll (a + 1) rest).mem }
    generalize ((s.poke a b).pokeAll (a + 1) rest).mem = m
    rw [State.poke_eq]

@[simp] theorem State.pokeAll_cfg (s : State) (a : Nat) (image : List Byte) : (s.pokeAll a image).cfg = s.cfg := by
  rw [State.pokeAll_eq]

/-- A poke keeps the canonical form. -/
theorem State.poke_wf {s : State} (a : Nat) (v : Byte) (h : Memory.wf s.mem) : Memory.wf (s.poke a v).mem := by
  unfold State.poke
  split
  · exact Memory.write_wf _ _ _ h
  · exact h

/-- A poke keeps every listed cell inside memory. -/
theorem State.poke_below {s : State} (a : Nat) (v : Byte) (h : Memory.below s.cfg.memSize s.mem) :
    Memory.below s.cfg.memSize (s.poke a v).mem := by
  unfold State.poke
  split
  case isTrue ha => exact Memory.write_below _ _ _ _ h ha
  case isFalse => exact h

/-- A store of the core keeps the canonical form. -/
theorem State.memWrite_wf {s t : State} {a : Nat} {v : Byte} (h : s.memWrite a v = .ok t) (hm : Memory.wf s.mem) :
    Memory.wf t.mem := by
  obtain ⟨-, rfl⟩ := State.memWrite_eq_ok h
  exact Memory.write_wf _ _ _ hm

/-- A store of the core keeps every listed cell inside memory. -/
theorem State.memWrite_below {s t : State} {a : Nat} {v : Byte} (h : s.memWrite a v = .ok t)
    (hm : Memory.below s.cfg.memSize s.mem) : Memory.below t.cfg.memSize t.mem := by
  obtain ⟨ha, rfl⟩ := State.memWrite_eq_ok h
  exact Memory.write_below _ _ _ _ hm ha

/-- Memory right after reset is in canonical form. -/
theorem State.reset_mem_wf : Memory.wf State.reset.mem := by decide

end Sys2Proof.Machine
end

