-- ==== Sys2Proof/Laws/PerInstr.lean ====
section
/-! SUPPORT. A family of statements about every instruction as syntax: the length of its encoding, which its opcode
byte alone tells (R90, R93, R103). -/

namespace Sys2Proof.Laws.EncodedLength

open Sys2Proof

/-- Under every admissible map the encoding is an opcode byte and as many operand bytes as its bits 7:6 say. -/
def Statement (i : Instr) : Prop :=
  ∀ m : OpcodeMap, m.Admissible →
    ∃ op rest, encode m i = op :: rest ∧ rest.length = operandBits op ∧ operandBits op ≤ 2

/-- The one proof, for every instruction. -/
theorem holds (i : Instr) : Statement i := by
  intro m hm
  have h := OpcodeMap.operandBits_code hm i.mnemonic
  refine ⟨m.code i.mnemonic, i.operands, rfl, ?_, ?_⟩
  · rw [h, Instr.operands_length]
  · rw [h]; exact Mnemonic.operandCount_le _

theorem hlt : Statement .hlt := holds _
theorem ldi (r imm : Byte) : Statement (.ldi r imm) := holds _
theorem prn (r : Byte) : Statement (.prn r) := holds _
theorem add (a b : Byte) : Statement (.add a b) := holds _
theorem mul (a b : Byte) : Statement (.mul a b) := holds _
theorem cmp (a b : Byte) : Statement (.cmp a b) := holds _
theorem push (r : Byte) : Statement (.push r) := holds _
theorem pop (r : Byte) : Statement (.pop r) := holds _
theorem call (r : Byte) : Statement (.call r) := holds _
theorem ret : Statement .ret := holds _
theorem jmp (r : Byte) : Statement (.jmp r) := holds _
theorem jeq (r : Byte) : Statement (.jeq r) := holds _
theorem jne (r : Byte) : Statement (.jne r) := holds _

end Sys2Proof.Laws.EncodedLength
end

