-- ==== Sys2Proof/Machine/Asm.lean ====
section
/-! DEFINITION. The assembler notation of R104 and the loader's listing of R105: writing an instruction as text, reading
a source line, laying out labelled lines as bytes, and writing and reading a listing (log 21 [DESIGN CHOICE, safe]). No tick uses any of it. -/

namespace Sys2Proof.Machine

/-- A register operand, `R0` to `R7` (R104). The rule gives no text to a byte of 8 or more; that it is written R8 to R255,
which `readReg` refuses, is the model's choice (log 23 [DESIGN CHOICE, safe]). -/
def asmReg (b : Byte) : String := "R" ++ toString b.toNat

/-- An instruction in R104's form, its immediate in decimal. -/
def asmText : Instr → String
  | .hlt => "HLT"
  | .ldi r imm => "LDI " ++ asmReg r ++ ", " ++ toString imm.toNat
  | .prn r => "PRN " ++ asmReg r
  | .add a b => "ADD " ++ asmReg a ++ ", " ++ asmReg b
  | .mul a b => "MUL " ++ asmReg a ++ ", " ++ asmReg b
  | .cmp a b => "CMP " ++ asmReg a ++ ", " ++ asmReg b
  | .push r => "PUSH " ++ asmReg r
  | .pop r => "POP " ++ asmReg r
  | .call r => "CALL " ++ asmReg r
  | .ret => "RET"
  | .jmp r => "JMP " ++ asmReg r
  | .jeq r => "JEQ " ++ asmReg r
  | .jne r => "JNE " ++ asmReg r

/-- What one source line holds after its label: an instruction, or an LDI whose immediate is a label (R104). -/
inductive AsmBody where
  | plain (i : Instr)
  | ldiLabel (r : Byte) (target : String)
deriving DecidableEq, Repr

/-- One source line: an optional label, then its instruction (R104). -/
structure AsmLine where
  label : Option String
  body : AsmBody
deriving DecidableEq, Repr

/-- The length of a line in bytes (R90). -/
def AsmLine.length (l : AsmLine) : Nat :=
  match l.body with
  | .plain i => 1 + i.mnemonic.operandCount
  | .ldiLabel _ _ => 1 + Mnemonic.ldi.operandCount

/-- The address a label stands for: that of the instruction after it (R104). -/
def labelAddr (name : String) (addr : Nat) : List AsmLine → Option Nat
  | [] => none
  | l :: rest => if l.label = some name then some addr else labelAddr name (addr + l.length) rest

/-- The instruction of a line, its label replaced by the address, which must be an immediate, 0 to 255 (R104). -/
def resolveLine (program : List AsmLine) (l : AsmLine) : Option Instr :=
  match l.body with
  | .plain i => some i
  | .ldiLabel r target =>
    match labelAddr target 0 program with
    | some addr => if addr < 256 then some (.ldi r (BitVec.ofNat 8 addr)) else none
    | none => none

/-- The image of a list of lines under a map, from address 0 (R104, R105); none where a label has no address. -/
def assemble (m : OpcodeMap) (program : List AsmLine) : Option (List Byte) :=
  (program.mapM (resolveLine program)).map (fun is => is.flatMap (encode m))

/-- The parts of a text between the occurrences of a separator. -/
def pieces (sep : Char) (cs : List Char) : List (List Char) :=
  cs.foldr (fun c acc => if c = sep then [] :: acc else match acc with
    | [] => [[c]]
    | w :: rest => (c :: w) :: rest) [[]]

/-- A text without the spaces around it. -/
def trim (cs : List Char) : List Char :=
  ((cs.dropWhile (· == ' ')).reverse.dropWhile (· == ' ')).reverse

/-- The value of a digit, decimal or hexadecimal. -/
def digitValue (c : Char) : Option Nat :=
  if '0'.toNat ≤ c.toNat ∧ c.toNat ≤ '9'.toNat then some (c.toNat - '0'.toNat)
  else if 'a'.toNat ≤ c.toNat ∧ c.toNat ≤ 'f'.toNat then some (c.toNat - 'a'.toNat + 10)
  else if 'A'.toNat ≤ c.toNat ∧ c.toNat ≤ 'F'.toNat then some (c.toNat - 'A'.toNat + 10)
  else none

/-- The number that further digits in a base make of a number. -/
def readDigits (base acc : Nat) : List Char → Option Nat
  | [] => some acc
  | c :: rest =>
    match digitValue c with
    | some d => if d < base then readDigits base (base * acc + d) rest else none
    | none => none

/-- A byte in a base, from at least one digit. -/
def readByte (base : Nat) (cs : List Char) : Option Byte :=
  match cs with
  | [] => none
  | _ =>
    match readDigits base 0 cs with
    | some n => if n < 256 then some (BitVec.ofNat 8 n) else none
    | none => none

/-- An immediate: decimal, `0x` hexadecimal or `0b` binary, 0 to 255 (R104). -/
def readImm (cs : List Char) : Option Byte :=
  match cs with
  | '0' :: 'x' :: rest => readByte 16 rest
  | '0' :: 'b' :: rest => readByte 2 rest
  | _ => readByte 10 cs

/-- A register operand: `R0` to `R7`, or `SP` for `R7` (R104). -/
def readReg (cs : List Char) : Option Byte :=
  match cs with
  | ['S', 'P'] => some 7
  | ['R', d] =>
    match readByte 10 [d] with
    | some r => if r.toNat < 8 then some r else none
    | none => none
  | _ => none

/-- The second operand of an LDI: a number where it starts with a digit, else a label (R104). -/
def readLdi (r : Byte) (cs : List Char) : Option AsmBody :=
  match cs with
  | [] => none
  | c :: _ =>
    if '0'.toNat ≤ c.toNat ∧ c.toNat ≤ '9'.toNat then (readImm cs).map (fun imm => .plain (.ldi r imm))
    else some (.ldiLabel r (String.ofList cs))

/-- One of R104's thirteen forms, from its mnemonic and its operands. -/
def readForm (mnemonic : List Char) (operands : List (List Char)) : Option AsmBody :=
  match mnemonic, operands with
  | ['H', 'L', 'T'], [] => some (.plain .hlt)
  | ['R', 'E', 'T'], [] => some (.plain .ret)
  | ['P', 'R', 'N'], [r] => (readReg r).map (fun r => .plain (.prn r))
  | ['P', 'U', 'S', 'H'], [r] => (readReg r).map (fun r => .plain (.push r))
  | ['P', 'O', 'P'], [r] => (readReg r).map (fun r => .plain (.pop r))
  | ['C', 'A', 'L', 'L'], [r] => (readReg r).map (fun r => .plain (.call r))
  | ['J', 'M', 'P'], [r] => (readReg r).map (fun r => .plain (.jmp r))
  | ['J', 'E', 'Q'], [r] => (readReg r).map (fun r => .plain (.jeq r))
  | ['J', 'N', 'E'], [r] => (readReg r).map (fun r => .plain (.jne r))
  | ['L', 'D', 'I'], [r, i] => (readReg r).bind (fun r => readLdi r i)
  | ['A', 'D', 'D'], [a, b] => (readReg a).bind (fun a => (readReg b).map (fun b => .plain (.add a b)))
  | ['M', 'U', 'L'], [a, b] => (readReg a).bind (fun a => (readReg b).map (fun b => .plain (.mul a b)))
  | ['C', 'M', 'P'], [a, b] => (readReg a).bind (fun a => (readReg b).map (fun b => .plain (.cmp a b)))
  | _, _ => none

/-- An instruction's text: the mnemonic, then its operands separated by a comma (R104). -/
def readBody (cs : List Char) : Option AsmBody :=
  let text := trim cs
  let rest := trim (text.dropWhile (· != ' '))
  readForm (text.takeWhile (· != ' ')) (if rest = [] then [] else (pieces ',' rest).map trim)

/-- A source line: an optional `label:`, then an instruction (R104). The rule does not say which characters a label may
have; that it is any text without a colon that holds more than spaces is the model's choice (log 24 [DESIGN CHOICE, safe]). -/
def readLine (cs : List Char) : Option AsmLine :=
  match pieces ':' cs with
  | [body] => (readBody body).map (fun b => { label := none, body := b })
  | [label, body] =>
    if trim label = [] then none
    else (readBody body).map (fun b => { label := some (String.ofList (trim label)), body := b })
  | _ => none

/-- A source text, one instruction per line, as an image from address 0 (R104). Blank lines are skipped. -/
def assembleText (m : OpcodeMap) (source : String) : Option (List Byte) :=
  (((pieces '\n' source.toList).filter (fun l => trim l != [])).mapM readLine).bind (assemble m)

/-- One byte as the binary literal of a listing line (R105). -/
def listingLine (b : Byte) : String :=
  String.ofList ((List.range 8).map (fun i => if b.getLsbD (7 - i) then '1' else '0'))

/-- An image as the loader's listing: one byte per line (R105). -/
def listing (image : List Byte) : List String := image.map listingLine

/-- The bytes of a listing: comments after `#` and blank lines are stripped, and every other line is one binary
literal (R105). The rule does not say how many digits it has; that it is any number of them, one at least, with a value
below 256, is the model's choice (log 25 [DESIGN CHOICE, safe]). -/
def readListing (source : String) : Option (List Byte) :=
  (((pieces '\n' source.toList).map (fun l => trim (l.takeWhile (· != '#')))).filter (· != [])).mapM (readByte 2)

end Sys2Proof.Machine
end

