-- ==== Sys2Proof/Tests/Slice0.lean ====
section
/-! SUPPORT. The model's own tests. Expected values come from spec/95_test_vectors.md (V, W, P numbers), from R95's
table written out bit by bit, or from the rule named. Then a witness for each statement with hypotheses. -/

namespace Sys2Proof.Tests

open Sys2Proof Sys2Proof.Machine

/-- The runner's machine with the registers, PC, FL and cells given (conventions of 95_test_vectors.md). -/
def st (regs : Vector Byte 8) (pc : Nat) (fl : Byte) (mem : Memory) : State :=
  { State.reset with regs := regs, pc := pc, fl := fl, mem := mem }

/-- The same with another MEM_SIZE. -/
def sized (n : Nat) (s : State) : State := { s with cfg := { s.cfg with memSize := n } }

/-- R0 and R1 as given, the rest as at reset. -/
def two (x y : Byte) : Vector Byte 8 := #v[x, y, 0, 0, 0, 0, 0, 0xF4]

/-- Only SP as given. -/
def spAt (sp : Byte) : Vector Byte 8 := #v[0, 0, 0, 0, 0, 0, 0, sp]

/-- Place the three bytes at PC (`w` holds the first in its low bits) and tick once. -/
def one (s : State) (w : Nat) : State := (s.withFetchWord 24 w).tick

/-! ## Decoding: words written out from R95 and R91 -/

theorem test_decode_hlt : decodeBytes .default [0b00000001, 0, 0] = .ok .hlt := rfl
theorem test_decode_ret : decodeBytes .default [0b00001001, 8, 8] = .ok .ret := rfl
theorem test_decode_prn : decodeBytes .default [0b01000011, 0b00000111, 0xFF] = .ok (.prn 7) := rfl
theorem test_decode_call : decodeBytes .default [0b01001000, 0b00000001, 0] = .ok (.call 1) := rfl
theorem test_decode_pop : decodeBytes .default [0b01001100, 0b00000010, 0] = .ok (.pop 2) := rfl
theorem test_decode_push : decodeBytes .default [0b01001101, 0b00000101, 0] = .ok (.push 5) := rfl
theorem test_decode_jmp : decodeBytes .default [0b01010000, 0b00000011, 0] = .ok (.jmp 3) := rfl
theorem test_decode_jeq : decodeBytes .default [0b01010001, 0b00000010, 0] = .ok (.jeq 2) := rfl
theorem test_decode_jne : decodeBytes .default [0b01010010, 0b00000011, 0] = .ok (.jne 3) := rfl
theorem test_decode_ldi : decodeBytes .default [0b10011001, 0b00000011, 0b11111111] = .ok (.ldi 3 255) := rfl
theorem test_decode_cmp : decodeBytes .default [0b10100000, 0b00000100, 0b00000110] = .ok (.cmp 4 6) := rfl
theorem test_decode_add : decodeBytes .default [0b10101000, 0b00000111, 0b00000001] = .ok (.add 7 1) := rfl
theorem test_decode_mul : decodeBytes .default [0b10101010, 0b00000000, 0b00000001] = .ok (.mul 0 1) := rfl

/-- V74, V76, V77: there is no NOP, bits 7:6 = 11 are unknown, and 0x02 is unknown. -/
theorem test_decode_unknown :
    decodeBytes .default [0x00, 0, 0] = .error (.unknown (.unknownOpcode 0x00)) ∧
    decodeBytes .default [0xC0, 0, 0] = .error (.unknown (.unknownOpcode 0xC0)) ∧
    decodeBytes .default [0x02, 0, 0] = .error (.unknown (.unknownOpcode 0x02)) := ⟨rfl, rfl, rfl⟩

/-- R121: fewer than three bytes are no fetch. -/
theorem test_decode_short : decodeBytes .default [0x01, 0] = .error (.tooShort 2) := rfl

/-- R91: the encoding of P1's first instruction. -/
theorem test_encode_ldi : encode .default (.ldi 0 8) = [0x99, 0x00, 0x08] := rfl

/-- The opcode table's numbering: bits above the row's are 0. -/
theorem test_table_word :
    decodeTableWord 8 0x99 = some (.ldi 0 0) ∧ decodeTableWord 24 0x0100A8 = some (.add 0 1) ∧
    decodeTableWord 8 0xFFFF01 = some .hlt ∧ decodeTableWord 8 0xFF = none := by decide

/-! ## Well-formedness: a term each check refuses -/

theorem test_wf_accepts : (Instr.add 7 0).WellFormed ∧ (Instr.ldi 7 255).WellFormed ∧ Instr.ret.WellFormed := by decide
theorem test_illformed_ldi : ¬ (Instr.ldi 8 0).WellFormed := by decide
theorem test_illformed_prn : ¬ (Instr.prn 8).WellFormed := by decide
theorem test_illformed_add : ¬ (Instr.add 8 0).WellFormed ∧ ¬ (Instr.add 0 8).WellFormed := by decide
theorem test_illformed_mul : ¬ (Instr.mul 8 0).WellFormed ∧ ¬ (Instr.mul 0 8).WellFormed := by decide
theorem test_illformed_cmp : ¬ (Instr.cmp 8 0).WellFormed ∧ ¬ (Instr.cmp 0 255).WellFormed := by decide
theorem test_illformed_push : ¬ (Instr.push 8).WellFormed := by decide
theorem test_illformed_pop : ¬ (Instr.pop 8).WellFormed := by decide
theorem test_illformed_call : ¬ (Instr.call 8).WellFormed := by decide
theorem test_illformed_jmp : ¬ (Instr.jmp 8).WellFormed := by decide
theorem test_illformed_jeq : ¬ (Instr.jeq 9).WellFormed := by decide
theorem test_illformed_jne : ¬ (Instr.jne 255).WellFormed := by decide

/-- R6, R94: the default configuration is admissible; a MEM_SIZE of 2 or 257, a doubled opcode, and an opcode with a
wrong operand count are not. -/
theorem test_config_admissible : Config.default.Admissible := by decide
theorem test_config_size : ¬ { Config.default with memSize := 2 }.Admissible ∧
    ¬ { Config.default with memSize := 257 }.Admissible := by decide
theorem test_opcodes_doubled : ¬ { OpcodeMap.default with ret := 0x01 }.Admissible := by decide
theorem test_opcodes_count : ¬ { OpcodeMap.default with ret := 0x49 }.Admissible := by decide
theorem test_config_memInit : ¬ { Config.default with memInit := [(256, 1)] }.Admissible ∧
    ¬ { Config.default with memInit := [(3, 0)] }.Admissible := by decide

/-- The canonical form refuses a zero cell, a falling pair and a repeated address. -/
theorem test_memory_wf : Memory.wf [(1, 5), (2, 7)] ∧ ¬ Memory.wf [(1, 0)] ∧ ¬ Memory.wf [(2, 7), (1, 5)] ∧
    ¬ Memory.wf [(1, 5), (1, 7)] := by decide

/-- A write keeps the list sorted, and writing 0 takes the entry out. -/
theorem test_memory_write : Memory.write [(1, 5), (9, 7)] 4 6 = [(1, 5), (4, 6), (9, 7)] ∧
    Memory.write [(1, 5), (9, 7)] 9 0 = [(1, 5)] := by decide

/-! ## One step of each instruction -/

/-- V1, V3. -/
theorem test_add : (one (st (two 3 4) 0 4 []) 0x0100A8).regs[0] = 7 ∧ (one (st (two 3 4) 0 4 []) 0x0100A8).pc = 3 ∧
    (one (st (two 3 4) 0 4 []) 0x0100A8).fl = 4 := by decide
/-- V2, V6. -/
theorem test_add_wraps : (one (st (two 200 100) 0 0 []) 0x0100A8).regs[0] = 44 ∧
    (one (st (two 0 2) 0 0 []) 0x0107A8).regs[7] = 0xF6 := by decide
/-- V7, V9. -/
theorem test_mul : (one (st (two 8 9) 0 0 []) 0x0100AA).regs[0] = 72 ∧
    (one (st (two 255 255) 0 0 []) 0x0100AA).regs[0] = 1 := by decide
/-- V13, V17. -/
theorem test_cmp_equal : (one (st (two 5 5) 0 4 []) 0x0100A0).fl = 0b00000001 := by decide
/-- V14, V16: the order is unsigned. -/
theorem test_cmp_unsigned : (one (st (two 0 255) 0 0 []) 0x0100A0).fl = 0b00000100 ∧
    (one (st (two 0x80 0x7F) 0 0 []) 0x0100A0).fl = 0b00000010 := by decide
/-- V26: PC may leave memory by the advance; the next tick faults there. -/
theorem test_ldi_top : (one (st (two 0 0) 253 0 []) 0x070399).regs[3] = 7 ∧
    (one (st (two 0 0) 253 0 []) 0x070399).pc = 256 ∧
    (one (st (two 0 0) 253 0 []) 0x070399).tick.status = .fault (.memoryFault 256) := by decide
/-- V25. -/
theorem test_ldi_bad_register : (one State.reset 0x050899).status = .fault (.registerIndexFault 8) := by decide
/-- V27, V28. -/
theorem test_prn : (one (st (two 72 0) 0 0 []) 0x43).output = [72] ∧
    (one State.reset 0xFF0743).output = [244] := by decide
/-- V30, V34. -/
theorem test_hlt : (one (st (two 0 0) 11 0 []) 0x01).status = .halted ∧ (one (st (two 0 0) 11 0 []) 0x01).pc = 12 ∧
    (one (st (two 0 0) 11 0 []) 0x01).tick = one (st (two 0 0) 11 0 []) 0x01 := by decide
/-- V32, V35: HLT at 254 faults in its fetch; with three cells it fits. -/
theorem test_hlt_fetch : ((st (two 0 0) 254 0 [(254, 1)]).tick).status = .fault (.memoryFault 256) ∧
    (sized 3 (st (two 0 0) 0 0 [(0, 1)])).tick.status = .halted := by decide
/-- V37, V40: the register is read after the decrement. -/
theorem test_push : (one (st (two 21 0) 0 0 []) 0x4D).mem = [(0, 0x4D), (0xF3, 21)] ∧
    (one State.reset 0x074D).mem = [(0, 0x4D), (1, 7), (0xF3, 0xF3)] := by decide
/-- V39, V41, V42: the checks of a push and their order. -/
theorem test_push_faults : (one (st (spAt 0) 0 0 []) 0x4D).status = .fault .stackOverflow ∧
    (one (sized 128 State.reset) 0x4D).status = .fault (.memoryFault 0xF3) ∧
    (one (st (spAt 0) 0 0 []) 0x084D).status = .fault (.registerIndexFault 8) := by decide
/-- V43, V44. -/
theorem test_pop : (one (st (spAt 0xF3) 0 0 [(0xF3, 21)]) 0x024C).regs = #v[0, 0, 21, 0, 0, 0, 0, 0xF4] ∧
    (one (st (spAt 0xF3) 0 0 [(0xF3, 0x10)]) 0x074C).regs[7] = 0x11 := by decide
/-- V45, V46, V48. -/
theorem test_pop_faults : (one (st (spAt 0xFF) 0 0 []) 0x4C).status = .fault .stackUnderflow ∧
    (one (st (spAt 0xF3) 0 0 [(0xF3, 0xFF)]) 0x074C).status = .fault .stackUnderflow ∧
    (one (sized 128 State.reset) 0x014C).status = .fault (.memoryFault 0xF4) := by decide
/-- V50. -/
theorem test_call : (one (st #v[0, 15, 0, 0, 0, 0, 0, 0xF3] 8 0 []) 0x0148).pc = 15 ∧
    Memory.read (one (st #v[0, 15, 0, 0, 0, 0, 0, 0xF3] 8 0 []) 0x0148).mem 0xF2 = 10 := by decide
/-- V51, V54: CALL R7 goes to the new SP; the return address of a CALL at 253 is 255. -/
theorem test_call_sp : (one (st (spAt 0xF4) 8 0 []) 0x0748).pc = 0xF3 ∧
    Memory.read (one (st (two 0 0x10) 253 0 []) 0x0148).mem 0xF3 = 255 := by decide
/-- V56, V57. -/
theorem test_ret : (one (st (spAt 0xF2) 0 0 [(0xF2, 10)]) 0x09).pc = 10 ∧
    (one (st (spAt 0xF2) 0 0 [(0xF2, 10)]) 0x09).regs[7] = 0xF3 ∧
    (one (st (spAt 0xFF) 0 0 []) 0x09).status = .fault .stackUnderflow := by decide
/-- V60, V62. -/
theorem test_jmp : (one (st #v[0, 0, 0, 12, 0, 0, 0, 0] 0 0 []) 0x0350).pc = 12 ∧
    (one State.reset 0x0850).status = .fault (.registerIndexFault 8) := by decide
/-- V63, V64, V67. -/
theorem test_jeq : (one (st #v[0, 0, 20, 0, 0, 0, 0, 0] 0 1 []) 0x0251).pc = 20 ∧
    (one (st #v[0, 0, 20, 0, 0, 0, 0, 0] 0 4 []) 0x0251).pc = 2 ∧
    (one State.reset 0x0951).status = .fault (.registerIndexFault 9) := by decide
/-- V68, V70, V71. -/
theorem test_jne : (one (st #v[0, 0, 0, 12, 0, 0, 0, 0] 0 2 []) 0x0352).pc = 12 ∧
    (one (st #v[0, 0, 0, 12, 0, 0, 0, 0] 0 1 []) 0x0352).pc = 2 ∧
    (one (st #v[0, 0, 0, 12, 0, 0, 0, 0] 0 0 []) 0x0352).pc = 12 := by decide
/-- W6, P5: an unknown opcode stops without advancing PC and reports (ILLEGAL, 1, 0xFF) at PC 3. -/
theorem test_illegal : (one (st (two 7 0) 3 0 []) 0xFF).status = .illegal 0xFF ∧
    (one (st (two 7 0) 3 0 []) 0xFF).pc = 3 ∧
    (one (st (two 7 0) 3 0 []) 0xFF).report.map (fun r => (r.code, r.recorded, r.pc)) = some (some 1, some 0xFF, 3) := by
  decide
/-- V20: operand A is checked first. -/
theorem test_operand_order : (one State.reset 0x0A09A8).status = .fault (.registerIndexFault 9) := by decide

/-! ## Host interface and notation -/

/-- R291: P1's first bytes are loaded from address 0, over MEM_INIT. -/
theorem test_load : (State.launch { Config.default with memInit := [(1, 9), (2, 8)] } [0x99, 0x00]).mem
    = [(0, 0x99), (2, 8)] := by decide
/-- R290: reset leaves HALTED. -/
theorem test_host_reset : { State.reset with status := .halted, pc := 9, fl := 1 }.hostReset = State.reset := by decide
/-- R54. -/
theorem test_halted_out : State.reset.haltedOut = false ∧ (one State.reset 0x01).haltedOut = true := by decide
/-- R183, P4. -/
theorem test_render : { State.reset with output := [3, 72] }.renderOutput = "3\n72\n" := by decide
/-- R104, R105: the forms, and the listing line of 0x99. -/
theorem test_asm_text : asmText (.ldi 0 8) = "LDI R0, 8" ∧ asmText (.add 0 1) = "ADD R0, R1" ∧
    listingLine 0x99 = "10011001" := by decide
/-- R104: a label stands for the address of its instruction. -/
theorem test_assemble : assemble .default [⟨none, .ldiLabel 1 "f"⟩, ⟨none, .plain (.call 1)⟩, ⟨none, .plain .hlt⟩,
    ⟨some "f", .plain .ret⟩] = some [0x99, 0x01, 0x06, 0x48, 0x01, 0x01, 0x09] := by decide

/-- P1 as R104 writes it, and W3 with SP, a hexadecimal and a label. -/
theorem test_assemble_text :
    assembleText .default "LDI R0, 8\nLDI R1, 9\nMUL R0, R1\nPRN R0\nHLT"
      = some [0x99, 0, 8, 0x99, 1, 9, 0xAA, 0, 1, 0x43, 0, 1] ∧
    assembleText .default "  LDI R1, f\nCALL R1\nLDI SP, 0xF4\n\nf: RET"
      = some [0x99, 1, 8, 0x48, 1, 0x99, 7, 0xF4, 9] ∧
    assembleText .default "PUSH R8" = none := by decide
/-- The first lines of R105's example. -/
theorem test_listing : readListing "10011001 # LDI R0,8\n00000000\n\n00001000" = some [0x99, 0, 8] ∧
    listing [0x99, 0] = ["10011001", "00000000"] := by decide

/-! ## Witnesses: a state and operands that meet each statement's hypotheses -/

theorem witness_LoadPlacesTheImage : [0x01, 0x02, 0x03].length ≤ { Config.default with memSize := 3 }.memSize := by decide
theorem witness_OpcodeMapAdmissible : OpcodeMap.default.Admissible := by decide
theorem witness_EncodeOfDecode : decode .default 0xA8 0 1 = .ok (.add 0 1) := rfl
theorem witness_UnknownTopBits : (0xC0 : Byte).toNat / 64 = 3 := by decide
theorem witness_StepRunsTheDecodedInstruction : (st (two 0 0) 253 0 [(253, 1)]).CanFetch ∧
    decode (st (two 0 0) 253 0 [(253, 1)]).cfg.opcodes 1 0 0 = .ok .hlt ∧
    (st (two 0 0) 253 0 [(253, 1)]).byteAt 0 = 1 ∧ (st (two 0 0) 253 0 [(253, 1)]).byteAt 1 = 0 ∧
    (st (two 0 0) 253 0 [(253, 1)]).byteAt 2 = 0 := ⟨by decide, rfl, by decide, by decide, by decide⟩
/-- Each of the three reads can be the one outside. -/
theorem witness_FetchOutsideMemoryFaults : (st (two 0 0) 254 0 []).status = .running ∧
    (st (two 0 0) 254 0 []).cfg.memSize ≤ 254 + 2 ∧ (st (two 0 0) 255 0 []).cfg.memSize ≤ 255 + 1 ∧
    (st (two 0 0) 256 0 []).cfg.memSize ≤ 256 := by decide
theorem witness_UnknownOpcodeStopsTheCore : State.reset.CanFetch ∧
    ∀ k : Mnemonic, State.reset.cfg.opcodes.code k ≠ State.reset.byteAt 0 :=
  ⟨by decide, fun k => by cases k <;> decide⟩
theorem witness_Stopped : { State.reset with status := .halted }.Final := by decide
theorem witness_Registers : (0 : Byte).toNat < 8 ∧ (7 : Byte).toNat < 8 ∧ (6 : Byte).toNat < 7 := by decide
/-- PUSH and CALL: the lowest SP, the highest, and the highest that a small memory admits. -/
theorem witness_Push : 1 ≤ (st (spAt 1) 0 0 []).regs[7].toNat ∧
    (st (spAt 1) 0 0 []).regs[7].toNat - 1 < (st (spAt 1) 0 0 []).cfg.memSize ∧
    (st (spAt 255) 0 0 []).regs[7].toNat - 1 < (st (spAt 255) 0 0 []).cfg.memSize ∧
    (sized 128 (st (spAt 128) 0 0 [])).regs[7].toNat - 1 < (sized 128 (st (spAt 128) 0 0 [])).cfg.memSize := by decide
/-- CALL: the return address that fits, at the last address a fetch allows. -/
theorem witness_CallFits : (st (spAt 1) 253 0 []).pc + 2 < (st (spAt 1) 253 0 []).cfg.memSize ∧
    (st (spAt 1) 253 0 []).cfg.memSize ≤ 256 := by decide
/-- POP and RET: SP at 0 and at 254. -/
theorem witness_Pop : (st (spAt 254) 0 0 []).regs[7].toNat < (st (spAt 254) 0 0 []).cfg.memSize ∧
    (st (spAt 254) 0 0 []).regs[7].toNat ≤ 254 ∧ (st (spAt 0) 0 0 []).regs[7].toNat ≤ 254 := by decide
/-- POP R7: the largest popped byte that completes, with SP at 255. -/
theorem witness_PopOfSp : (st (spAt 255) 0 0 [(255, 254)]).regs[7].toNat < (st (spAt 255) 0 0 [(255, 254)]).cfg.memSize ∧
    (Memory.read (st (spAt 255) 0 0 [(255, 254)]).mem 255).toNat ≤ 254 := by decide
theorem witness_RegisterByteFaults : 8 ≤ (8 : Byte).toNat ∧ Instr.jne 8 ∈ [Instr.ldi 8 0, .prn 8, .jne 8] ∧
    (7 : Byte).toNat < 8 ∧ 8 ≤ (255 : Byte).toNat := by decide
theorem witness_UnusedOperands : decode .default 0x43 7 0xFF = .ok (.prn 7) ∧
    (Instr.prn 7).mnemonic.operandCount = 1 ∧ decode .default 0x01 0xFF 0xFF = .ok .hlt ∧
    Instr.hlt.mnemonic.operandCount = 0 := ⟨rfl, rfl, rfl, rfl⟩
theorem witness_PushAtZeroOverflows : (st (spAt 0) 0 0 []).regs[7] = 0 := by decide
/-- Underflow of POP and RET, and of POP R7 at SP = 255. -/
theorem witness_PopPast255Underflows : (st (spAt 255) 0 0 []).regs[7] = 255 ∧
    255 < (st (spAt 255) 0 0 []).cfg.memSize ∧
    (st (spAt 255) 0 0 [(255, 255)]).regs[7].toNat < (st (spAt 255) 0 0 [(255, 255)]).cfg.memSize ∧
    Memory.read (st (spAt 255) 0 0 [(255, 255)]).mem 255 = 255 := by decide
/-- The first SP outside a memory of 128 cells, for a push and for a pop. -/
theorem witness_StackAccessOutsideMemory : (sized 128 (st (spAt 129) 0 0 [])).regs[7] ≠ 0 ∧
    (sized 128 (st (spAt 129) 0 0 [])).cfg.memSize ≤ (sized 128 (st (spAt 129) 0 0 [])).regs[7].toNat - 1 ∧
    (sized 128 (st (spAt 128) 0 0 [])).cfg.memSize ≤ (sized 128 (st (spAt 128) 0 0 [])).regs[7].toNat := by decide
theorem witness_ErrorsArePrecise : State.reset.status = .running ∧
    ∃ t, step State.reset = .next t ∧ t.status.IsError := ⟨rfl, _, rfl, by decide⟩
theorem witness_EveryTickKeepsLegalStates : State.reset.Legal ∧ ∃ t, step State.reset = .next t :=
  ⟨by decide, _, rfl⟩
theorem witness_LaunchStatesAreLegal : { Config.default with memInit := [(2, 8), (255, 1)] }.Admissible := by decide
theorem witness_AtMostOneFlag : legalFl (st (two 0 0) 0 4 [(0, 0xA0)]).fl ∧
    ∃ t, step (st (two 0 0) 0 4 [(0, 0xA0)]) = .next t ∧ t.fl = 1 := ⟨by decide, _, rfl, rfl⟩
theorem witness_NotCmp : (Instr.add 0 1).mnemonic ≠ .cmp ∧ ∃ t, exec (.add 0 1) State.reset = .next t :=
  ⟨by decide, _, rfl⟩
theorem witness_OnlyCmpChangesFl : ∃ t, step (st (two 0 0) 0 4 [(0, 0xA0)]) = .next t ∧
    t.fl ≠ (st (two 0 0) 0 4 [(0, 0xA0)]).fl := ⟨_, rfl, by decide⟩
theorem witness_OnlyFlagEIsRead : (0b00000100 : Byte).getLsbD 0 = (st (two 0 0) 0 2 []).fl.getLsbD 0 ∧
    ∃ t, exec (.jne 0) (st (two 0 0) 0 2 []) = .next t := ⟨by decide, _, rfl⟩
theorem witness_OnlyPrnAppendsOutput : ∃ t, step (st (two 5 0) 0 0 [(0, 0x43)]) = .next t ∧ t.output = [5] :=
  ⟨_, rfl, rfl⟩
theorem witness_OnlyPushAndCallWriteMemory : ∃ t, step (st (two 5 0) 0 0 [(0, 0x4D)]) = .next t ∧
    Memory.read t.mem 0xF3 ≠ Memory.read (st (two 5 0) 0 0 [(0, 0x4D)]).mem 0xF3 := ⟨_, rfl, by decide⟩
theorem witness_OnlyHltHalts : (st (two 0 0) 0 0 [(0, 1)]).status = .running ∧
    ∃ t, step (st (two 0 0) 0 0 [(0, 1)]) = .next t ∧ t.status = .halted := ⟨rfl, _, rfl, rfl⟩
/-- The three kinds of instruction that advance: always, JEQ with E clear, JNE with E set. -/
theorem witness_Advance : decode State.reset.cfg.opcodes 0xA8 0 1 = .ok (.add 0 1) ∧
    (∃ t, exec (.add 0 1) State.reset = .next t ∧ ¬ t.status.IsError) ∧
    (∃ t, exec (.jeq 0) State.reset = .next t ∧ ¬ t.status.IsError) ∧ State.reset.fl.getLsbD 0 = false ∧
    (∃ t, exec (.jne 0) (st (two 0 0) 0 1 []) = .next t ∧ ¬ t.status.IsError) ∧
    (st (two 0 0) 0 1 []).fl.getLsbD 0 = true :=
  ⟨rfl, ⟨_, rfl, by decide⟩, ⟨_, rfl, by decide⟩, by decide, ⟨_, rfl, by decide⟩, by decide⟩
theorem witness_FetchSeesThePushedByte : 1 ≤ (st (spAt 254) 0 0 []).regs[7].toNat ∧
    (st (spAt 254) 0 0 []).regs[7].toNat + 1 < (st (spAt 254) 0 0 []).cfg.memSize := by decide
theorem witness_PushThenPopRoundTrips : 1 ≤ (sized 128 (st (spAt 128) 0 0 [])).regs[7].toNat ∧
    (sized 128 (st (spAt 128) 0 0 [])).regs[7].toNat ≤ (sized 128 (st (spAt 128) 0 0 [])).cfg.memSize := by decide
/-- R225: CALL R1 at 0 with x[1] = 6 and a RET at 6 (W3). -/
def callThenRet : State := st (two 0 6) 0 0 [(0, 0x48), (1, 1), (6, 0x09)]
theorem witness_CallThenRetReturns : callThenRet.cfg.Admissible ∧ callThenRet.CanFetch ∧
    1 ≤ callThenRet.regs[7].toNat ∧ callThenRet.regs[7].toNat - 1 < callThenRet.cfg.memSize ∧
    decode callThenRet.cfg.opcodes (callThenRet.byteAt 0) (callThenRet.byteAt 1) (callThenRet.byteAt 2) = .ok (.call 1) ∧
    ∃ t, step callThenRet = .next t ∧ t.pc + 2 < callThenRet.cfg.memSize ∧
      decode callThenRet.cfg.opcodes (t.byteAt 0) (t.byteAt 1) (t.byteAt 2) = .ok .ret :=
  ⟨by decide, by decide, by decide, by decide, rfl, _, rfl, by decide, rfl⟩
/-- V61: JMP R0 at 5 with x[0] = 5. -/
def selfJump : State := st (two 5 0) 5 0 [(5, 0x50)]
theorem witness_JumpToItselfHangs : selfJump.CanFetch ∧
    decode selfJump.cfg.opcodes (selfJump.byteAt 0) (selfJump.byteAt 1) (selfJump.byteAt 2) = .ok (.jmp 0) ∧
    selfJump.regs[(0 : Byte).toNat].toNat = selfJump.pc := ⟨by decide, rfl, by decide⟩
theorem witness_MemoryPort : 255 < State.reset.cfg.memSize ∧ State.reset.cfg.memSize ≤ 256 := by decide
/-- The frames: each instruction answers a next state, on a good operand and on a bad one. -/
theorem witness_Frames :
    (∃ t, exec (.ldi 0 9) State.reset = .next t) ∧ (∃ t, exec (.add 0 8) State.reset = .next t) ∧
    (∃ t, exec (.mul 0 1) State.reset = .next t) ∧ (∃ t, exec (.cmp 0 1) State.reset = .next t) ∧
    (∃ t, exec (.prn 0) State.reset = .next t) ∧ (∃ t, exec .hlt State.reset = .next t) ∧
    (∃ t, exec (.jmp 8) State.reset = .next t) ∧ (∃ t, exec (.jeq 0) State.reset = .next t) ∧
    (∃ t, exec (.jne 0) State.reset = .next t) ∧ (∃ t, exec (.push 0) State.reset = .next t) ∧
    (∃ t, exec (.call 0) State.reset = .next t) ∧ (∃ t, exec (.pop 0) State.reset = .next t) ∧
    (∃ t, exec .ret State.reset = .next t) ∧ State.reset.decSp.sp.toNat = 0xF3 :=
  ⟨⟨_, rfl⟩, ⟨_, rfl⟩, ⟨_, rfl⟩, ⟨_, rfl⟩, ⟨_, rfl⟩, ⟨_, rfl⟩, ⟨_, rfl⟩, ⟨_, rfl⟩, ⟨_, rfl⟩, ⟨_, rfl⟩, ⟨_, rfl⟩,
    ⟨_, rfl⟩, ⟨_, rfl⟩, by decide⟩
theorem witness_NoTickChangesTheConfiguration : ∃ t, step callThenRet = .next t := ⟨_, rfl⟩

end Sys2Proof.Tests
end

namespace Sys2Proof.Machine

/-- A store of the core keeps the configuration. -/
theorem State.memWrite_keeps_cfg {s t : State} {a : Nat} {v : Byte} (h : s.memWrite a v = .ok t) : t.cfg = s.cfg := by
  obtain ⟨-, rfl⟩ := State.memWrite_eq_ok h
  rfl

/-- A completed instruction keeps the configuration: only PUSH and CALL store, and every other effect is a named
update of another field. -/
theorem Completes.cfg_eq {i : Instr} {s t : State} (h : Completes i s t) : t.cfg = s.cfg := by
  cases i with
  | hlt => cases h; rfl
  | ldi | prn | jmp => obtain ⟨r, -, rfl⟩ := h; rfl
  | add | mul | cmp => obtain ⟨r, q, -, -, rfl⟩ := h; rfl
  | push | call => obtain ⟨r, u, -, -, hu, rfl⟩ := h; exact (State.memWrite_keeps_cfg hu).trans s.decSp_cfg
  | pop => obtain ⟨r, v, -, -, -, rfl⟩ := h; rfl
  | ret => obtain ⟨v, -, -, rfl⟩ := h; rfl
  | jeq | jne => obtain ⟨r, -, rfl⟩ := h; split <;> rfl

/-- Settles O43, by what a tick can do: nothing, complete an instruction, or take an error. -/
theorem noTickChangesTheConfiguration : Obligations.NoTickChangesTheConfiguration := by
  intro s t h
  rcases step_cases h with ⟨-, rfl⟩ | ⟨-, i, -, hc⟩ | ⟨-, st, -, rfl⟩
  · rfl
  · exact hc.cfg_eq
  · exact State.raise_cfg s st

end Sys2Proof.Machine

/-! ## The state (10_state.md): reset, load, legal states, FL and the output stream -/

namespace Sys2Proof

/-- R7 after reset holds SP_INIT (R47). -/
theorem Config.launchRegs_sp (c : Config) : c.launchRegs[7] = c.spInit := by
  simp [Config.launchRegs]

/-- R0 to R6 after reset hold REG_INIT (R48). -/
theorem Config.launchRegs_of_lt (c : Config) {i : Nat} (h : i < 7) : c.launchRegs[i] = c.regInit[i] := by
  simp [Config.launchRegs, h]

/-- R6's defaults satisfy the constraints of R6 and R94. -/
theorem Config.default_admissible : Config.default.Admissible := by decide

end Sys2Proof

namespace Sys2Proof.Machine

/-! What a completed instruction leaves unchanged, and the few ways in which it moves PC and memory. -/

/-- The fields that only one instruction writes, or none: the report, the status (HLT), FL (CMP), the output (PRN). -/
structure SingleWriterFrame (i : Instr) (s t : State) : Prop where
  report : t.report = s.report
  status : i.mnemonic ≠ .hlt → t.status = s.status
  fl : i.mnemonic ≠ .cmp → t.fl = s.fl
  output : i.mnemonic ≠ .prn → t.output = s.output

theorem Completes.singleWriterFrame {i : Instr} {s t : State} (h : Completes i s t) : SingleWriterFrame i s t := by
  cases i with
  | hlt => cases h; exact ⟨rfl, fun hne => absurd rfl hne, fun _ => rfl, fun _ => rfl⟩
  | prn => obtain ⟨r, -, rfl⟩ := h; exact ⟨rfl, fun _ => rfl, fun _ => rfl, fun hne => absurd rfl hne⟩
  | cmp => obtain ⟨r, q, -, -, rfl⟩ := h; exact ⟨rfl, fun _ => rfl, fun hne => absurd rfl hne, fun _ => rfl⟩
  | ldi | jmp => obtain ⟨r, -, rfl⟩ := h; exact ⟨rfl, fun _ => rfl, fun _ => rfl, fun _ => rfl⟩
  | add | mul => obtain ⟨r, q, -, -, rfl⟩ := h; exact ⟨rfl, fun _ => rfl, fun _ => rfl, fun _ => rfl⟩
  | push | call =>
    obtain ⟨r, u, -, -, hu, rfl⟩ := h
    obtain ⟨-, rfl⟩ := State.memWrite_eq_ok hu
    exact ⟨rfl, fun _ => rfl, fun _ => rfl, fun _ => rfl⟩
  | pop => obtain ⟨r, v, -, -, -, rfl⟩ := h; exact ⟨rfl, fun _ => rfl, fun _ => rfl, fun _ => rfl⟩
  | ret => obtain ⟨v, -, -, rfl⟩ := h; exact ⟨rfl, fun _ => rfl, fun _ => rfl, fun _ => rfl⟩
  | jeq | jne =>
    obtain ⟨r, -, rfl⟩ := h
    split <;> exact ⟨rfl, fun _ => rfl, fun _ => rfl, fun _ => rfl⟩

/-- A completed instruction leaves memory alone or writes one byte inside it (R63, R64). -/
theorem Completes.mem_cases {i : Instr} {s t : State} (h : Completes i s t) :
    t.mem = s.mem ∨ ∃ a v, a < s.cfg.memSize ∧ t.mem = Memory.write s.mem a v := by
  cases i with
  | hlt => cases h; exact .inl rfl
  | ldi | prn | jmp => obtain ⟨r, -, rfl⟩ := h; exact .inl rfl
  | add | mul | cmp => obtain ⟨r, q, -, -, rfl⟩ := h; exact .inl rfl
  | push | call =>
    obtain ⟨r, u, -, -, hu, rfl⟩ := h
    obtain ⟨ha, rfl⟩ := State.memWrite_eq_ok hu
    exact .inr ⟨_, _, ha, rfl⟩
  | pop => obtain ⟨r, v, -, -, -, rfl⟩ := h; exact .inl rfl
  | ret => obtain ⟨v, -, -, rfl⟩ := h; exact .inl rfl
  | jeq | jne => obtain ⟨r, -, rfl⟩ := h; split <;> exact .inl rfl

/-- A completed instruction advances PC by its length or sets it to a byte (R125, R226). -/
theorem Completes.pc_cases {i : Instr} {s t : State} (h : Completes i s t) :
    t.pc = s.pc + 1 + i.mnemonic.operandCount ∨ ∃ v : Byte, t.pc = v.toNat := by
  cases i with
  | hlt => cases h; exact .inl rfl
  | ldi | prn => obtain ⟨r, -, rfl⟩ := h; exact .inl rfl
  | add | mul | cmp => obtain ⟨r, q, -, -, rfl⟩ := h; exact .inl rfl
  | push =>
    obtain ⟨r, u, -, -, hu, rfl⟩ := h
    obtain ⟨-, rfl⟩ := State.memWrite_eq_ok hu
    exact .inl rfl
  | pop => obtain ⟨r, v, -, -, -, rfl⟩ := h; exact .inl rfl
  | call => obtain ⟨r, u, -, -, -, rfl⟩ := h; exact .inr ⟨_, rfl⟩
  | ret => obtain ⟨v, -, -, rfl⟩ := h; exact .inr ⟨v, rfl⟩
  | jmp => obtain ⟨r, -, rfl⟩ := h; exact .inr ⟨_, rfl⟩
  | jeq => obtain ⟨r, -, rfl⟩ := h; split; exacts [.inr ⟨_, rfl⟩, .inl rfl]
  | jne => obtain ⟨r, -, rfl⟩ := h; split; exacts [.inl rfl, .inr ⟨_, rfl⟩]

/-- A completed instruction leaves FL as it was, or is a CMP, which writes a comparison's flag (R38, R156). -/
theorem Completes.fl_cases {i : Instr} {s t : State} (h : Completes i s t) :
    t.fl = s.fl ∨ ∃ a b c, i = .cmp a b ∧ t.fl = flOf c := by
  cases i with
  | cmp a b => obtain ⟨r, q, -, -, rfl⟩ := h; exact .inr ⟨a, b, _, rfl, rfl⟩
  | _ => exact .inl (h.singleWriterFrame.fl nofun)

/-- A completed instruction leaves the output as it was, or is a PRN, which appends its register's value (R182). -/
theorem Completes.output_cases {i : Instr} {s t : State} (h : Completes i s t) :
    t.output = s.output ∨
      ∃ (a : Byte) (ha : a.toNat < 8), i = .prn a ∧ t.output = s.output ++ [s.regs[a.toNat]] := by
  cases i with
  | prn a =>
    obtain ⟨r, hr, rfl⟩ := h
    obtain ⟨ha, -⟩ := regIndex_eq_ok hr
    rw [regIndex_of_lt ha] at hr
    cases hr
    exact .inr ⟨a, ha, rfl, rfl⟩
  | _ => exact .inl (h.singleWriterFrame.output nofun)

/-- A running core that completes an instruction is not in error (R124). -/
theorem Completes.not_isError {i : Instr} {s t : State} (h : Completes i s t) (hr : s.status = .running) :
    ¬ t.status.IsError := by
  cases i with
  | hlt => cases h; exact Bool.false_ne_true
  | _ => rw [h.singleWriterFrame.status nofun, hr]; exact Bool.false_ne_true

/-! Legal states: an error keeps them, and so does an instruction that was fetched inside memory. -/

/-- Taking an error keeps a legal state legal: the report it makes is the one its status asks for (R263). -/
theorem State.Legal.raise {s : State} {st : Status} (h : s.Legal) (hst : st.IsError) : (s.raise st).Legal := by
  obtain ⟨hcfg, hwf, hbelow, hfl, hpc, -⟩ := h
  exact ⟨hcfg, hwf, hbelow, hfl, hpc, fun _ => rfl, fun hne => absurd hst hne⟩

theorem Completes.mem_wf {i : Instr} {s t : State} (h : Completes i s t) (hm : Memory.wf s.mem) :
    Memory.wf t.mem := by
  rcases h.mem_cases with hmem | ⟨a, v, -, hmem⟩
  · rwa [hmem]
  · rw [hmem]; exact Memory.write_wf _ _ _ hm

theorem Completes.mem_below {i : Instr} {s t : State} (h : Completes i s t)
    (hm : Memory.below s.cfg.memSize s.mem) : Memory.below t.cfg.memSize t.mem := by
  rw [h.cfg_eq]
  rcases h.mem_cases with hmem | ⟨a, v, ha, hmem⟩
  · rwa [hmem]
  · rw [hmem]; exact Memory.write_below _ _ _ _ hm ha

/-- FL keeps at most one flag (R39). -/
theorem Completes.fl_legal {i : Instr} {s t : State} (h : Completes i s t) (hs : legalFl s.fl) : legalFl t.fl := by
  rcases h.fl_cases with hfl | ⟨a, b, c, -, hfl⟩
  · rwa [hfl]
  · rw [hfl]; exact flOf_legal c

/-- PC stays at most 256 after a fetch inside 256 cells: an advance is by at most 3, a target is a byte (R130). -/
theorem Completes.pc_le {i : Instr} {s t : State} (h : Completes i s t) (hpc : s.pc + 2 < 256) : t.pc ≤ 256 := by
  rcases h.pc_cases with he | ⟨v, he⟩
  · have := i.mnemonic.operandCount_le
    omega
  · have := v.isLt
    omega

/-- A running core without a report completes with a report that matches: none (R263). -/
theorem Completes.reportMatches {i : Instr} {s t : State} (h : Completes i s t) (hr : s.status = .running)
    (hs : s.ReportMatches) : t.ReportMatches := by
  have hnone : s.report = none := hs.2 (by rw [hr]; exact Bool.false_ne_true)
  exact ⟨fun he => absurd he (h.not_isError hr), fun _ => h.singleWriterFrame.report.trans hnone⟩

/-- An instruction that a running core has fetched keeps a legal state legal. -/
theorem Completes.legal {i : Instr} {s t : State} (h : Completes i s t) (hr : s.status = .running)
    (hf : s.fetchDecode = .ok i) (hs : s.Legal) : t.Legal := by
  obtain ⟨hcfg, hwf, hbelow, hfl, -, hrep⟩ := hs
  have hpc : s.pc + 2 < 256 := Nat.lt_of_lt_of_le (State.fetchDecode_eq_ok.1 hf).1 hcfg.2.1
  exact ⟨h.cfg_eq ▸ hcfg, h.mem_wf hwf, h.mem_below hbelow, h.fl_legal hfl, h.pc_le hpc, h.reportMatches hr hrep⟩

/-- Settles O33, by what a tick can do: nothing, complete a fetched instruction, or take an error. -/
theorem everyTickKeepsLegalStates : Obligations.EveryTickKeepsLegalStates := by
  intro s t hs h
  rcases step_cases h with ⟨-, rfl⟩ | ⟨hr, i, hf, hc⟩ | ⟨-, st, hst, rfl⟩
  · exact hs
  · exact hc.legal hr hf hs
  · exact hs.raise hst

/-- Reset gives a legal state under every admissible configuration (R46, R49, R6). -/
theorem State.resetWith_legal {c : Config} (hc : c.Admissible) : (State.resetWith c).Legal := by
  have ⟨_, _, _, hwf, hbelow⟩ := hc
  exact ⟨hc, hwf, hbelow, .inl rfl, Nat.zero_le _, fun he => absurd he Bool.false_ne_true, fun _ => rfl⟩

/-- Settles O34, as the default configuration is admissible. -/
theorem resetStateIsLegal : Obligations.ResetStateIsLegal :=
  State.resetWith_legal Config.default_admissible

/-! Reset and load. -/

/-- Settles O1: the registers by the two lemmas on the launch registers, the other fields as reset writes them. -/
theorem resetRestoresTheCore : Obligations.ResetRestoresTheCore :=
  ⟨rfl, fun s => ⟨rfl, rfl, s.cfg.launchRegs_sp, fun _ h => s.cfg.launchRegs_of_lt h, rfl, rfl, rfl, rfl, rfl⟩⟩

/-- Settles O2: SP is the default configuration's SP_INIT, every other field as reset writes it. -/
theorem defaultResetState : Obligations.DefaultResetState :=
  ⟨rfl, rfl, Config.default.launchRegs_sp, rfl, rfl, rfl, rfl⟩

/-- A poke leaves every other cell (R52). -/
theorem State.read_poke_ne (s : State) {a x : Nat} (v : Byte) (h : x ≠ a) :
    Memory.read (s.poke a v).mem x = Memory.read s.mem x := by
  by_cases ha : a < s.cfg.memSize
  · rw [State.poke_of_lt v ha]; exact Memory.read_write_ne _ v h
  · rw [State.poke_of_ge v (Nat.not_lt.1 ha)]

theorem State.poke_cfg (s : State) (a : Nat) (v : Byte) : (s.poke a v).cfg = s.cfg := by
  rw [State.poke_eq]

/-- Pokes at consecutive addresses leave the cells below and above them. -/
theorem State.read_pokeAll_outside (s : State) (a : Nat) (image : List Byte) {x : Nat}
    (h : x < a ∨ a + image.length ≤ x) : Memory.read (s.pokeAll a image).mem x = Memory.read s.mem x := by
  induction image generalizing s a with
  | nil => rfl
  | cons b rest ih =>
    rw [List.length_cons] at h
    exact (ih (s.poke a b) (a + 1) (by omega)).trans (s.read_poke_ne b (by omega))

/-- Pokes at consecutive addresses inside memory set each cell to its byte. -/
theorem State.read_pokeAll_inside (s : State) (a : Nat) (image : List Byte)
    (hfit : a + image.length ≤ s.cfg.memSize) (i : Nat) (hi : i < image.length) :
    Memory.read (s.pokeAll a image).mem (a + i) = image[i] := by
  induction image generalizing s a i with
  | nil => cases hi
  | cons b rest ih =>
    rw [List.length_cons] at hfit hi
    cases i with
    | zero =>
      refine ((s.poke a b).read_pokeAll_outside (a + 1) rest (.inl (Nat.lt_succ_self a))).trans ?_
      rw [State.poke_of_lt b (by omega)]
      exact Memory.read_write_self _ _ _
    | succ j =>
      have := ih (s.poke a b) (a + 1) (by rw [State.poke_cfg]; omega) j (by omega)
      rwa [Nat.add_assoc, Nat.add_comm 1 j] at this

/-- Settles O3, as a load pokes the image from address 0 over MEM_INIT. -/
theorem loadPlacesTheImage : Obligations.LoadPlacesTheImage := by
  intro c image hfit
  refine ⟨fun a ha => ?_, fun a ha => ?_, State.pokeAll_eq _ 0 image⟩
  · have h := State.read_pokeAll_inside { State.resetWith c with mem := c.memInit } 0 image
      ((Nat.zero_add _).trans_le hfit) a ha
    rwa [Nat.zero_add] at h
  · exact State.read_pokeAll_outside _ 0 image (.inr ((Nat.zero_add _).trans_le ha))

/-! FL: who writes it, and which bit of it is read. -/

/-- An instruction other than CMP leaves FL, whether it completes or errs (R38). -/
theorem exec_fl_eq {i : Instr} {s t : State} (h : exec i s = .next t) (hi : i.mnemonic ≠ .cmp) : t.fl = s.fl := by
  rcases exec_cases h with hc | ⟨k, rfl⟩
  · exact hc.singleWriterFrame.fl hi
  · exact State.raise_fl s _

/-- CMP on two registers writes their comparison's flag (R156). -/
theorem exec_cmp_of_regIndex {a b : Byte} {r q : Fin 8} (ha : regIndex a = .ok r) (hb : regIndex b = .ok q)
    (s : State) : exec (.cmp a b) s = .next ((s.setFl (flOf (aluCmp (s.reg r) (s.reg q)))).advance .cmp) := by
  simp [exec, execCmp, execAlu, alu, ha, hb]

/-- The operand bytes of a CMP alone decide whether it writes FL or errs (R156, R255). -/
theorem exec_cmp_cases (a b : Byte) :
    (∃ r q, ∀ s, exec (.cmp a b) s = .next ((s.setFl (flOf (aluCmp (s.reg r) (s.reg q)))).advance .cmp)) ∨
      ∃ k, ∀ s, exec (.cmp a b) s = .next (s.raise (.fault k)) := by
  cases ha : regIndex a with
  | error k => exact .inr ⟨k, fun s => by simp [exec, execCmp, execAlu, ha]⟩
  | ok r =>
    cases hb : regIndex b with
    | error k => exact .inr ⟨k, fun s => by simp [exec, execCmp, execAlu, ha, hb]⟩
    | ok q => exact .inl ⟨r, q, exec_cmp_of_regIndex ha hb⟩

/-- A comparison's value of FL has exactly one flag (R39, R156). -/
theorem State.one_flag_of_flOf {t : State} {c : Comparison} (h : t.fl = flOf c) :
    t.flagL.toNat + t.flagG.toNat + t.flagE.toNat = 1 := by
  unfold State.flagL State.flagG State.flagE
  rw [h]
  cases c <;> decide

/-- Settles O36: a tick by its cases, a CMP by what it writes. -/
theorem atMostOneFlagIsSet : Obligations.AtMostOneFlagIsSet := by
  refine ⟨fun _ => rfl, fun s t hs h => ?_, fun s t i hi h => exec_fl_eq h hi, fun s a b ha hb => ?_⟩
  · rcases step_cases h with ⟨-, rfl⟩ | ⟨-, i, -, hc⟩ | ⟨-, st, -, rfl⟩
    · exact hs
    · exact hc.fl_legal hs
    · exact hs
  · exact ⟨_, exec_cmp_of_regIndex (regIndex_of_lt ha) (regIndex_of_lt hb) s, State.one_flag_of_flOf rfl⟩

/-- Settles O37, as a tick other than a completed CMP leaves FL. -/
theorem onlyCmpChangesFl : Obligations.OnlyCmpChangesFl := by
  intro s t h hne
  rcases step_cases h with ⟨-, rfl⟩ | ⟨-, i, hf, hc⟩ | ⟨-, st, -, rfl⟩
  · exact absurd rfl hne
  · rcases hc.fl_cases with hfl | ⟨a, b, c, rfl, -⟩
    · exact absurd hfl hne
    · exact ⟨a, b, hf⟩
  · exact absurd rfl hne

/-- Settles O39, as a tick other than a completed PRN leaves the output. -/
theorem onlyPrnAppendsOutput : Obligations.OnlyPrnAppendsOutput := by
  intro s t h
  rcases step_cases h with ⟨-, rfl⟩ | ⟨-, i, hf, hc⟩ | ⟨-, st, -, rfl⟩
  · exact .inl rfl
  · rcases hc.output_cases with ho | ⟨a, ha, rfl, ho⟩
    · exact .inl ho
    · exact .inr ⟨a, ha, hf, ho⟩
  · exact .inl rfl

/-! Executing with another value of FL commutes with setting FL afterwards. -/

/-- Mapping the result of a sequence is mapping the result of its second part. -/
theorem except_bind_map {ε α β γ : Type} {x : Except ε α} {g : α → Except ε β} {g' : α → Except ε γ} {φ : β → γ}
    (h : ∀ a, g' a = (g a).map φ) : (x >>= g') = (x >>= g).map φ := by
  cases x with
  | ok a => exact h a
  | error e => rfl

/-- The end of Execute commutes with setting FL, if the Execute step does. -/
theorem State.settle_setFl {s t : State} {f : Byte} {r r' : Except FaultKind State}
    (hr : r' = r.map (·.setFl f)) (h : s.settle r = .next t) : (s.setFl f).settle r' = .next (t.setFl f) := by
  subst hr
  cases r with
  | ok u => cases h; rfl
  | error k => cases h; rfl

/-- A store and what follows it commute with setting FL, if what follows does. -/
theorem State.memWrite_setFl {s : State} {f : Byte} (a : Nat) (v : Byte) {g : State → State}
    (hg : ∀ u : State, g (u.setFl f) = (g u).setFl f) :
    ((s.setFl f).memWrite a v >>= fun u => .ok (g u)) =
      (s.memWrite a v >>= fun u => .ok (g u)).map (·.setFl f) := by
  by_cases ha : a < s.cfg.memSize
  · rw [State.memWrite_of_lt v ha, State.memWrite_of_lt (s := s.setFl f) v ha]
    exact congrArg Except.ok (hg { s with mem := Memory.write s.mem a v })
  · rw [State.memWrite_of_ge v (Nat.not_lt.1 ha), State.memWrite_of_ge (s := s.setFl f) v (Nat.not_lt.1 ha)]
    rfl

/-- An instruction other than CMP, started with another FL of the same E, does the same and keeps that FL (R38). -/
theorem exec_setFl {i : Instr} {s t : State} {f : Byte} (hi : i.mnemonic ≠ .cmp)
    (hE : (s.setFl f).flagE = s.flagE) (h : exec i s = .next t) : exec i (s.setFl f) = .next (t.setFl f) := by
  cases i with
  | hlt => cases h; rfl
  | cmp a b => exact absurd rfl hi
  | ldi | prn | jmp => exact State.settle_setFl (except_bind_map fun _ => rfl) h
  | add | mul | ret => exact State.settle_setFl (except_bind_map fun _ => except_bind_map fun _ => rfl) h
  | push | call =>
    refine State.settle_setFl (except_bind_map fun _ => except_bind_map fun _ => ?_) h
    exact State.memWrite_setFl (s := s.decSp) _ _ fun _ => rfl
  | pop =>
    exact State.settle_setFl (except_bind_map fun _ => except_bind_map fun _ => except_bind_map fun _ => rfl) h
  | jeq | jne =>
    refine State.settle_setFl (except_bind_map fun _ => ?_) h
    rw [hE]
    split <;> rfl

/-- A CMP started with another FL does the same, and overwrites that FL, or errs and keeps it (R156, R251). -/
theorem exec_cmp_setFl {a b : Byte} {s t : State} (f : Byte) (h : exec (.cmp a b) s = .next t) :
    exec (.cmp a b) (s.setFl f) = .next t ∨ (t.fl = s.fl ∧ exec (.cmp a b) (s.setFl f) = .next (t.setFl f)) := by
  rcases exec_cmp_cases a b with ⟨r, q, hok⟩ | ⟨k, herr⟩
  · rw [hok] at h
    cases h
    exact .inl (hok (s.setFl f))
  · rw [herr] at h
    cases h
    exact .inr ⟨rfl, herr (s.setFl f)⟩

/-- Settles O38: a CMP overwrites FL or errs, and every other instruction commutes with setting FL. -/
theorem onlyFlagEIsRead : Obligations.OnlyFlagEIsRead := by
  intro i s t f hE h
  cases i with
  | cmp a b =>
    rcases exec_cmp_setFl f h with hu | ⟨hfl, hu⟩
    · exact ⟨t, hu, rfl, .inl rfl⟩
    · exact ⟨t.setFl f, hu, rfl, .inr ⟨rfl, hfl⟩⟩
  | _ => exact ⟨t.setFl f, exec_setFl nofun hE h, rfl, .inr ⟨rfl, exec_fl_eq h nofun⟩⟩

end Sys2Proof.Machine

/-! ## Memory (20_memory.md): the port, who writes memory, and what a fetch sees -/

namespace Sys2Proof.Machine

/-- Settles O50, by the two outcomes of a read and of a write. -/
theorem memoryPortReadsAndWrites : Obligations.MemoryPortReadsAndWrites := by
  intro s a v
  constructor
  · intro ha
    exact ⟨State.memRead_of_lt ha, _, State.memWrite_of_lt v ha, Memory.read_write_self _ _ _,
      fun x hx => Memory.read_write_ne _ v hx, rfl⟩
  · intro ha
    exact ⟨State.memRead_of_ge ha, State.memWrite_of_ge v ha⟩

/-- A completed instruction leaves memory alone, or is a PUSH or a CALL with SP above 0, which writes one byte at the
decremented SP (R64, R201). -/
theorem Completes.stack_write_cases {i : Instr} {s t : State} (h : Completes i s t) :
    t.mem = s.mem ∨ ((∃ a, i = .push a ∨ i = .call a) ∧ s.sp ≠ 0 ∧
      ∃ v, t.mem = Memory.write s.mem s.decSp.sp.toNat v) := by
  cases i with
  | hlt => cases h; exact .inl rfl
  | ldi | prn | jmp => obtain ⟨r, -, rfl⟩ := h; exact .inl rfl
  | add | mul | cmp => obtain ⟨r, q, -, -, rfl⟩ := h; exact .inl rfl
  | push a =>
    obtain ⟨r, u, -, hp, hu, rfl⟩ := h
    obtain ⟨-, rfl⟩ := State.memWrite_eq_ok hu
    exact .inr ⟨⟨a, .inl rfl⟩, (State.pushCheck_eq_ok hp).1, _, rfl⟩
  | call a =>
    obtain ⟨r, u, -, hp, hu, rfl⟩ := h
    obtain ⟨-, rfl⟩ := State.memWrite_eq_ok hu
    exact .inr ⟨⟨a, .inr rfl⟩, (State.pushCheck_eq_ok hp).1, _, rfl⟩
  | pop => obtain ⟨r, v, -, -, -, rfl⟩ := h; exact .inl rfl
  | ret => obtain ⟨v, -, -, rfl⟩ := h; exact .inl rfl
  | jeq | jne => obtain ⟨r, -, rfl⟩ := h; split <;> exact .inl rfl

theorem State.sp_ne_zero_iff (s : State) : s.sp ≠ 0 ↔ 1 ≤ s.sp.toNat := by
  rw [ne_eq, BitVec.toNat_eq]
  exact Nat.pos_iff_ne_zero.symm

/-- Settles O40: a tick that changes memory completes a PUSH or a CALL, whose write leaves every byte but the one below
SP. -/
theorem onlyPushAndCallWriteMemory : Obligations.OnlyPushAndCallWriteMemory := by
  intro s t x h hne
  rcases step_cases h with ⟨-, rfl⟩ | ⟨-, i, hf, hc⟩ | ⟨-, st, -, rfl⟩
  · exact absurd rfl hne
  · rcases hc.stack_write_cases with hmem | ⟨⟨a, hi⟩, hsp, v, hmem⟩
    · exact absurd (congrArg (Memory.read · x) hmem) hne
    · have hx : x = s.decSp.sp.toNat := by
        by_contra hx
        exact hne (hmem ▸ Memory.read_write_ne s.mem v hx)
      rw [State.decSp_toNat hsp] at hx
      have hpos := s.sp_ne_zero_iff.1 hsp
      rw [← s.sp_eq]
      refine ⟨⟨a, ?_⟩, by omega⟩
      rcases hi with rfl | rfl
      exacts [.inl hf, .inr hf]
  · exact absurd rfl hne

/-- PUSH of a register whose checks pass decrements SP, stores the register as it then is at the new SP, and advances
(R201, R203). -/
theorem exec_push_of_checks {s : State} {a : Byte} {r : Fin 8} (ha : regIndex a = .ok r) (hsp : s.sp ≠ 0)
    (hm : s.sp.toNat - 1 < s.cfg.memSize) :
    exec (.push a) s = .next (State.advance
      { s.decSp with mem := Memory.write s.mem (s.sp.toNat - 1) (s.decSp.reg r) } .push) := by
  have hw := State.memWrite_of_lt (s := s.decSp) (s.decSp.reg r) hm
  simp only [exec, execPush, ha, State.pushCheck_ok hsp hm, State.decSp_toNat hsp, hw, except_ok_bind,
    State.settle_ok, State.decSp_mem]

/-- A fetch inside memory answers the byte at PC as the opcode (R74, R121). -/
theorem State.fetch_opcode_of_read {s : State} {v : Byte} (h : s.pc + 2 < s.cfg.memSize)
    (hv : Memory.read s.mem s.pc = v) : ∃ x y : Byte, s.fetch = .ok (v, x, y) :=
  ⟨_, _, hv ▸ State.fetch_of_canFetch h⟩

/-- Settles O44: the three reads of the fetch are inside memory, and the first is at the cell that PUSH has set. -/
theorem fetchSeesThePushedByte : Obligations.FetchSeesThePushedByte := by
  intro s a ha hpos hfit
  rw [← s.sp_eq] at hpos hfit ⊢
  refine ⟨_, exec_push_of_checks (regIndex_of_lt ha) (s.sp_ne_zero_iff.2 hpos) (by omega), ?_⟩
  refine State.fetch_opcode_of_read (show s.sp.toNat - 1 + 2 < s.cfg.memSize by omega) ?_
  exact Memory.read_write_self _ _ _

end Sys2Proof.Machine

/-! ## Encoding (30_encoding.md): the two round trips, the unknown opcodes, words of the opcode table -/

namespace Sys2Proof

/-- On a list of bytes Decode answers the selected instruction with the two bytes after the opcode (R96, R98). -/
theorem decodeBytes_of_lookup {m : OpcodeMap} {op : Byte} {k : Mnemonic} (h : m.lookup op = some k) (a b : Byte)
    (rest : List Byte) : decodeBytes m (op :: a :: b :: rest) = .ok (Instr.ofParts k a b) := by
  simp only [decodeBytes, decode_of_lookup h]

/-- The two bytes after the opcode of an encoded instruction, its own operands first and then whatever follows, are
parts from which the instruction is selected again: a format reads no more of them than it wrote (R91, R101). -/
theorem Instr.ofParts_of_operands_append (i : Instr) (x y : Byte) :
    ∃ a b rest, i.operands ++ [x, y] = a :: b :: rest ∧ Instr.ofParts i.mnemonic a b = i := by
  cases i <;> exact ⟨_, _, _, rfl, rfl⟩

/-- Settles O4: the lookup finds the name by its opcode, and the format finds its operands in the bytes that follow. -/
theorem decodeOfEncodeGivesTheInstruction : Obligations.DecodeOfEncodeGivesTheInstruction := by
  intro m i x y hm
  obtain ⟨a, b, rest, hbytes, hparts⟩ := i.ofParts_of_operands_append x y
  calc decodeBytes m (encode m i ++ [x, y])
      = decodeBytes m (m.code i.mnemonic :: a :: b :: rest) := by rw [encode, List.cons_append, hbytes]
    _ = .ok (Instr.ofParts i.mnemonic a b) := decodeBytes_of_lookup (OpcodeMap.lookup_code hm _) a b rest
    _ = .ok i := by rw [hparts]

/-- The encoding of a selected instruction is its opcode and as many of the given bytes as its count (R90, R91). -/
theorem encode_ofParts (m : OpcodeMap) (k : Mnemonic) (a b : Byte) :
    encode m (Instr.ofParts k a b) = m.code k :: [a, b].take k.operandCount := by
  rw [encode, Instr.ofParts_mnemonic, Instr.ofParts_operands]

/-- Bits 7:6 of a known opcode, as a quotient, are the operand count of the instruction it selects (R93, R94). -/
theorem OpcodeMap.operandCount_of_lookup {m : OpcodeMap} (hm : m.Admissible) {op : Byte} {k : Mnemonic}
    (h : m.lookup op = some k) : op.toNat / 64 = k.operandCount := by
  rw [← operandBits_eq, ← OpcodeMap.code_of_lookup h, OpcodeMap.operandBits_code hm]

/-- Settles O5: what Decode found is a name whose opcode is `op` and whose operand count is `op`'s bits 7:6. -/
theorem encodeOfDecodeGivesTheBytes : Obligations.EncodeOfDecodeGivesTheBytes := by
  intro m op a b i hm h
  obtain ⟨k, hk, rfl⟩ := decode_eq_ok h
  rw [OpcodeMap.operandCount_of_lookup hm hk, encode_ofParts, OpcodeMap.code_of_lookup hk]
  exact ⟨by rw [Nat.add_comm, List.take_succ_cons], k.operandCount_le⟩

/-- The known opcodes are those that the map gives a name, under any map. -/
theorem OpcodeMap.lookup_isSome_iff (m : OpcodeMap) (op : Byte) :
    (m.lookup op).isSome ↔ op ∈ Mnemonic.all.map m.code := by
  simp [OpcodeMap.lookup]

/-- Under an admissible map the numbers of the known opcodes are the thirteen numbers of the map, in some order. -/
theorem OpcodeMap.known_perm {m : OpcodeMap} (hm : m.Admissible) :
    ((List.range 256).filter fun n => (m.lookup (BitVec.ofNat 8 n)).isSome).Perm
      ((Mnemonic.all.map m.code).map BitVec.toNat) := by
  have hnodup : ((Mnemonic.all.map m.code).map BitVec.toNat).Nodup := hm.1.map fun _ _ => BitVec.eq_of_toNat_eq
  refine (List.perm_ext_iff_of_nodup (List.nodup_range.filter _) hnodup).2 fun n => ?_
  rw [List.mem_filter, List.mem_range, OpcodeMap.lookup_isSome_iff, List.mem_map (f := BitVec.toNat)]
  constructor
  · rintro ⟨hn, hmem⟩
    exact ⟨_, hmem, Nat.mod_eq_of_lt hn⟩
  · rintro ⟨op, hmem, rfl⟩
    exact ⟨op.isLt, by rwa [BitVec.ofNat_toNat, BitVec.setWidth_eq]⟩

/-- An opcode with bits 7:6 = 11 is unknown, since no instruction has three operand bytes (R94, R102). -/
theorem OpcodeMap.lookup_eq_none_of_three {m : OpcodeMap} (hm : m.Admissible) {op : Byte} (h : op.toNat / 64 = 3) :
    m.lookup op = none := by
  by_contra hsome
  obtain ⟨k, hk⟩ := Option.ne_none_iff_exists'.1 hsome
  have hcount := OpcodeMap.operandCount_of_lookup hm hk
  have hle := k.operandCount_le
  omega

/-- Settles O6: of the 256 bytes, the thirteen of the map are known and the rest are not. -/
theorem exactly243OpcodesAreUnknown : Obligations.Exactly243OpcodesAreUnknown := by
  intro m hm
  refine ⟨?_, fun op h => OpcodeMap.lookup_eq_none_of_three hm h⟩
  have hknown := (OpcodeMap.known_perm hm).length_eq
  have hsplit := (List.range 256).length_eq_length_filter_add fun n => (m.lookup (BitVec.ofNat 8 n)).isSome
  simp only [Option.not_isSome] at hsplit
  simp only [List.length_map, Mnemonic.all, List.length_cons, List.length_nil] at hknown
  rw [List.length_range, hknown] at hsplit
  omega

/-- Settles O7: the words' first bytes are opcodes of R95's table, and the last one's is not. -/
theorem specWordsDecode : Obligations.SpecWordsDecode :=
  ⟨decodeBytes_of_lookup (k := .hlt) rfl .., decodeBytes_of_lookup (k := .ldi) rfl ..,
    decodeBytes_of_lookup (k := .prn) rfl .., decodeBytes_of_lookup (k := .add) rfl ..,
    decodeBytes_of_lookup (k := .cmp) rfl .., decodeBytes_of_lookup (k := .push) rfl ..,
    decodeBytes_of_lookup (k := .jne) rfl .., rfl⟩

end Sys2Proof

/-! ## The engine (40_engine.md): Fetch and its faults, the stopped core, the advance of PC -/

namespace Sys2Proof.Machine

/-- Settles O8: a fetch inside memory that decodes gives the instruction which a running core executes. -/
theorem stepRunsTheDecodedInstruction : Obligations.StepRunsTheDecodedInstruction := by
  intro s i ⟨hr, hb⟩ hd
  exact step_of_ok hr (State.fetchDecode_eq_ok.2 ⟨hb, hd⟩)

/-! A fetch that leaves memory. -/

/-- A fetch whose last read is outside memory answers the fault of its first read outside (R121, R258). -/
theorem State.fetch_of_outside {s : State} (h : s.cfg.memSize ≤ s.pc + 2) :
    s.fetch = .error (.memoryFault
      (if s.cfg.memSize ≤ s.pc then s.pc else if s.cfg.memSize ≤ s.pc + 1 then s.pc + 1 else s.pc + 2)) := by
  unfold State.fetch
  by_cases h0 : s.cfg.memSize ≤ s.pc
  · rw [if_pos h0, State.memRead_of_ge h0, except_error_bind]
  · rw [if_neg h0, State.memRead_of_lt (Nat.not_le.1 h0), except_ok_bind]
    by_cases h1 : s.cfg.memSize ≤ s.pc + 1
    · rw [if_pos h1, State.memRead_of_ge h1, except_error_bind]
    · rw [if_neg h1, State.memRead_of_lt (Nat.not_le.1 h1), except_ok_bind, State.memRead_of_ge h, except_error_bind]

/-- A fault of Fetch comes before Decode (R258). -/
theorem State.fetchDecode_of_fetch_error {s : State} {k : FaultKind} (h : s.fetch = .error k) :
    s.fetchDecode = .error (.fault k) := by
  unfold State.fetchDecode; rw [h]

/-- Settles O9: the running core takes the fault of the first read outside memory. -/
theorem fetchOutsideMemoryFaults : Obligations.FetchOutsideMemoryFaults := by
  intro s hr h
  exact step_of_error hr (State.fetchDecode_of_fetch_error (State.fetch_of_outside h))

/-! The stopped core. -/

/-- Settles O11: each status but RUNNING leads to the idle tick. -/
theorem stoppedTickChangesNothing : Obligations.StoppedTickChangesNothing := by
  intro s h
  unfold step
  cases hs : s.status with
  | running => exact absurd hs h
  | halted | illegal | fault => rfl

/-- A tick goes to the state that the step answers. -/
theorem State.tick_of_next {s t : State} (h : step s = .next t) : s.tick = t := by
  unfold State.tick; rw [h]

/-- A state that its own tick leaves alone is left alone by any number of ticks. -/
theorem State.ticks_of_tick_eq {s : State} (h : s.tick = s) (n : Nat) : s.ticks n = s := by
  induction n with
  | zero => rfl
  | succ n ih => rw [State.ticks, h, ih]

/-- A run from a state that its own step answers ends in that state, for every machine behind the interface. -/
theorem core_run_of_step_eq {M : Host.Core} {s : M.State} (h : M.step s = .next s) (n : Nat) : M.run n s = .next s := by
  induction n with
  | zero => rfl
  | succ n ih => rw [Host.Core.run, h]; exact ih

/-- Settles O13, by induction on the ticks for both run functions. -/
theorem stoppedCoreStaysStopped : Obligations.StoppedCoreStaysStopped := by
  intro s n h
  have hstep := stoppedTickChangesNothing s h
  exact ⟨core_run_of_step_eq (M := Sys2Proof.core) hstep n, State.ticks_of_tick_eq (State.tick_of_next hstep) n⟩

/-! The advance of PC. -/

/-- A completed instruction that does not advance PC by its length is a CALL, a RET, a JMP, a JEQ with E set or a JNE
with E clear (R125, R220 to R224). -/
theorem Completes.advances_or_jumps {i : Instr} {s t : State} (h : Completes i s t) :
    t.pc = s.pc + 1 + i.mnemonic.operandCount ∨ i.mnemonic ∈ [Mnemonic.call, .ret, .jmp] ∨
      (i.mnemonic = .jeq ∧ s.flagE = true) ∨ (i.mnemonic = .jne ∧ s.flagE = false) := by
  cases i with
  | hlt => cases h; exact .inl rfl
  | ldi | prn => obtain ⟨r, -, rfl⟩ := h; exact .inl rfl
  | add | mul | cmp => obtain ⟨r, q, -, -, rfl⟩ := h; exact .inl rfl
  | push =>
    obtain ⟨r, u, -, -, hu, rfl⟩ := h
    obtain ⟨-, rfl⟩ := State.memWrite_eq_ok hu
    exact .inl rfl
  | pop => obtain ⟨r, v, -, -, -, rfl⟩ := h; exact .inl rfl
  | call | ret | jmp => exact .inr (.inl (by simp [Instr.mnemonic]))
  | jeq =>
    obtain ⟨r, -, rfl⟩ := h
    cases hE : s.flagE with
    | true => exact .inr (.inr (.inl ⟨rfl, rfl⟩))
    | false => exact .inl rfl
  | jne =>
    obtain ⟨r, -, rfl⟩ := h
    cases hE : s.flagE with
    | true => exact .inl rfl
    | false => exact .inr (.inr (.inr ⟨rfl, rfl⟩))

/-- An instruction that ends in no error has completed (R124). -/
theorem exec_completes {i : Instr} {s t : State} (h : exec i s = .next t) (ht : ¬ t.status.IsError) :
    Completes i s t := by
  rcases exec_cases h with hc | ⟨k, rfl⟩
  · exact hc
  · exact absurd rfl ht

/-- Bits 7:6 of a decoded opcode, as a quotient, are the instruction's operand count (R93, R94). -/
theorem operandCount_of_decode {m : OpcodeMap} (hm : m.Admissible) {op a b : Byte} {i : Instr}
    (h : decode m op a b = .ok i) : op.toNat / 64 = i.mnemonic.operandCount := by
  obtain ⟨k, hk, rfl⟩ := decode_eq_ok h
  rw [Instr.ofParts_mnemonic, OpcodeMap.operandCount_of_lookup hm hk]

/-- Settles O42: the completed instruction is none of those that set PC, so it advances by its length. -/
theorem advanceIsOnePlusTheOperandBits : Obligations.AdvanceIsOnePlusTheOperandBits := by
  intro s t op a b i hm hd _ h ht hadv
  rw [operandCount_of_decode hm hd]
  change _ ∨ (_ ∧ s.flagE = false) ∨ (_ ∧ s.flagE = true) at hadv
  rcases (exec_completes h ht).advances_or_jumps with hpc | hk | ⟨hk, hE⟩ | ⟨hk, hE⟩
  · exact hpc
  · simp only [List.mem_cons, List.not_mem_nil, or_false] at hk
    rcases hk with hk | hk | hk <;> simp [hk] at hadv
  · simp [hk, hE] at hadv
  · simp [hk, hE] at hadv

end Sys2Proof.Machine

/-! ## The ALU and its instructions (41_alu.md): ADD, MUL and CMP -/

namespace Sys2Proof.Machine

/-! The ALU's functions. -/

/-- Settles O48: each operation is one on 8-bit words, which reduces modulo 2^8. -/
theorem aluArithmeticIsModulo256 : Obligations.AluArithmeticIsModulo256 := fun x y =>
  ⟨BitVec.toNat_add x y, BitVec.toNat_mul x y, BitVec.toNat_add x 1, BitVec.toNat_add x 255⟩

/-- The sum as the word of its number (R151). -/
theorem aluAdd_eq_ofNat (x y : Byte) : aluAdd x y = BitVec.ofNat 8 ((x.toNat + y.toNat) % 256) := by
  obtain ⟨hadd, -⟩ := aluArithmeticIsModulo256 x y
  rw [← hadd, BitVec.ofNat_toNat, BitVec.setWidth_eq]

/-- The product as the word of its number (R151). -/
theorem aluMul_eq_ofNat (x y : Byte) : aluMul x y = BitVec.ofNat 8 ((x.toNat * y.toNat) % 256) := by
  obtain ⟨-, hmul, -⟩ := aluArithmeticIsModulo256 x y
  rw [← hmul, BitVec.ofNat_toNat, BitVec.setWidth_eq]

theorem aluCmp_of_lt {x y : Byte} (h : x.toNat < y.toNat) : aluCmp x y = .less := by
  unfold aluCmp; rw [if_pos h]

theorem aluCmp_of_gt {x y : Byte} (h : y.toNat < x.toNat) : aluCmp x y = .greater := by
  unfold aluCmp; rw [if_neg (Nat.lt_asymm h), if_pos h]

theorem aluCmp_self (x : Byte) : aluCmp x x = .equal := by
  unfold aluCmp; rw [if_neg (Nat.lt_irrefl _), if_neg (Nat.lt_irrefl _)]

/-- Settles O49, as of two numbers one is less or they are equal, and equal numbers are of equal bytes. -/
theorem comparisonIsUnsigned : Obligations.ComparisonIsUnsigned := by
  intro x y
  rcases Nat.lt_trichotomy x.toNat y.toNat with h | h | h
  · have hne : x ≠ y := fun e => absurd (congrArg BitVec.toNat e) (Nat.ne_of_lt h)
    simp [aluCmp_of_lt h, h, hne, Nat.le_of_lt h]
  · obtain rfl := BitVec.eq_of_toNat_eq h
    simp [aluCmp_self]
  · have hne : x ≠ y := fun e => absurd (congrArg BitVec.toNat e) (Nat.ne_of_gt h)
    simp [aluCmp_of_gt h, h, hne, Nat.le_of_lt h]

/-- The flag of a comparison, by the unsigned order of the two bytes (R152, R156). -/
theorem flOf_aluCmp (x y : Byte) : flOf (aluCmp x y) =
    if x.toNat < y.toNat then 0b00000100 else if y.toNat < x.toNat then 0b00000010 else 0b00000001 := by
  unfold aluCmp
  rw [apply_ite flOf, apply_ite flOf, flOf, flOf, flOf]

/-! The instructions. -/

/-- On two registers the shared Execute step puts the ALU's result and advances (R150, R124). -/
theorem execAlu_of_regIndex {a b : Byte} {r q : Fin 8} (ha : regIndex a = .ok r) (hb : regIndex b = .ok q)
    (tag : AluTag) (k : Mnemonic) (s : State) :
    execAlu tag k a b s = .next ((s.putResult r (alu tag (s.reg r) (s.reg q))).advance k) := by
  rw [execAlu, ha, hb, except_ok_bind, except_ok_bind, State.settle_ok]

/-- Settles O17: the shared Execute step puts the sum into register A. -/
theorem addWritesTheSumModulo256 : Obligations.AddWritesTheSumModulo256 := by
  intro s a b ha hb
  rw [← aluAdd_eq_ofNat]
  exact execAlu_of_regIndex (regIndex_of_lt ha) (regIndex_of_lt hb) .add .add s

/-- Settles O18: the shared Execute step puts the product into register A. -/
theorem mulWritesTheProductModulo256 : Obligations.MulWritesTheProductModulo256 := by
  intro s a b ha hb
  rw [← aluMul_eq_ofNat]
  exact execAlu_of_regIndex (regIndex_of_lt ha) (regIndex_of_lt hb) .mul .mul s

/-- Settles O19: CMP writes the flag of the comparison, which the unsigned order decides. -/
theorem cmpWritesTheUnsignedOrder : Obligations.CmpWritesTheUnsignedOrder := by
  intro s a b ha hb
  rw [← flOf_aluCmp]
  exact exec_cmp_of_regIndex (regIndex_of_lt ha) (regIndex_of_lt hb) s

/-- Settles O52: a CMP sets FL and advances, or takes an error. -/
theorem compareFrame : Obligations.CompareFrame := by
  intro s t a b h
  rcases exec_cases h with ⟨r, q, -, -, rfl⟩ | ⟨k, rfl⟩
  · exact ⟨rfl, fun _ => rfl, rfl, rfl, .inl ⟨rfl, rfl⟩⟩
  · exact ⟨rfl, fun _ => rfl, rfl, rfl, .inr ⟨k, rfl⟩⟩

end Sys2Proof.Machine

/-! ## System and I/O (42_system_io.md): HLT, LDI and PRN -/

namespace Sys2Proof.Machine

/-! The instructions. -/

/-- Settles O14, as HLT checks nothing: it halts and advances by its length, 1. -/
theorem hltHaltsAndAdvances : Obligations.HltHaltsAndAdvances := fun _ => rfl

/-- LDI to a register writes the immediate and advances (R181). -/
theorem exec_ldi_of_regIndex {a : Byte} {r : Fin 8} (ha : regIndex a = .ok r) (imm : Byte) (s : State) :
    exec (.ldi a imm) s = .next ((s.setReg r imm).advance .ldi) := by
  rw [exec, execLdi, ha, except_ok_bind, State.settle_ok]

/-- PRN of a register emits its value and advances (R182). -/
theorem exec_prn_of_regIndex {a : Byte} {r : Fin 8} (ha : regIndex a = .ok r) (s : State) :
    exec (.prn a) s = .next ((s.emit (s.reg r)).advance .prn) := by
  rw [exec, execPrn, ha, except_ok_bind, State.settle_ok]

/-- Settles O15: the operand byte names a register, and LDI's length is 3. -/
theorem ldiLoadsTheImmediate : Obligations.LdiLoadsTheImmediate :=
  fun s _ imm ha => exec_ldi_of_regIndex (regIndex_of_lt ha) imm s

/-- Settles O16: the operand byte names a register, and PRN's length is 2. -/
theorem prnEmitsTheRegister : Obligations.PrnEmitsTheRegister :=
  fun s _ ha => exec_prn_of_regIndex (regIndex_of_lt ha) s

/-! Who halts the core. -/

/-- A completed instruction that leads from RUNNING to HALTED is HLT, the only one that writes the status (R180). -/
theorem Completes.eq_hlt {i : Instr} {s t : State} (h : Completes i s t) (hr : s.status = .running)
    (ht : t.status = .halted) : i = .hlt := by
  cases i with
  | hlt => rfl
  | _ =>
    have hkept := h.singleWriterFrame.status nofun
    rw [hr, ht] at hkept
    cases hkept

/-- Settles O41, by what a tick can do: a running core completes an instruction, which is then HLT, or takes an error,
and HALTED is none. -/
theorem onlyHltHalts : Obligations.OnlyHltHalts := by
  intro s t hr h ht
  rcases step_cases h with ⟨hne, -⟩ | ⟨-, i, hf, hc⟩ | ⟨-, st, hst, rfl⟩
  · exact absurd hr hne
  · obtain rfl := hc.eq_hlt hr ht
    exact ⟨hf, hc⟩
  · rw [State.raise_status] at ht
    subst ht
    exact absurd hst Bool.false_ne_true

/-! The frames. -/

/-- A completed LDI, ADD or MUL writes a value to the register that byte A names, and advances (R181, R154, R155). -/
theorem Completes.register_write {i : Instr} {s t : State} {a b : Byte} (h : Completes i s t)
    (hi : i = .ldi a b ∨ i = .add a b ∨ i = .mul a b) :
    ∃ r v k, regIndex a = .ok r ∧ t = (s.setReg r v).advance k := by
  rcases hi with rfl | rfl | rfl
  · obtain ⟨r, hr, rfl⟩ := h
    exact ⟨r, b, .ldi, hr, rfl⟩
  · obtain ⟨r, q, hr, -, rfl⟩ := h
    exact ⟨r, _, .add, hr, rfl⟩
  · obtain ⟨r, q, hr, -, rfl⟩ := h
    exact ⟨r, _, .mul, hr, rfl⟩

/-- Settles O51: one register is written, the one that byte A names, or an error is taken. -/
theorem registerWritesFrame : Obligations.RegisterWritesFrame := by
  intro s t a b i hi h
  rcases exec_cases h with hc | ⟨k, rfl⟩
  · obtain ⟨r, v, k, hr, rfl⟩ := hc.register_write hi
    obtain ⟨-, hra⟩ := regIndex_eq_ok hr
    refine ⟨fun q hq hne => ?_, fun _ => rfl, rfl, rfl, rfl, .inl ⟨rfl, rfl⟩⟩
    exact Vector.getElem_set_ne r.isLt hq (hra.trans_ne hne.symm)
  · exact ⟨fun _ _ _ => rfl, fun _ => rfl, rfl, rfl, rfl, .inr ⟨k, rfl⟩⟩

/-- Settles O53: a PRN emits and advances, a HLT halts and advances, or an error is taken. -/
theorem outputAndHaltFrame : Obligations.OutputAndHaltFrame := by
  intro s t a i hi h
  rcases exec_cases h with hc | ⟨k, rfl⟩
  · rcases hi with rfl | rfl
    · obtain ⟨r, -, rfl⟩ := hc
      exact ⟨rfl, fun _ => rfl, rfl, rfl, nofun, .inl ⟨rfl, fun _ => rfl⟩⟩
    · cases hc
      exact ⟨rfl, fun _ => rfl, rfl, rfl, fun _ => rfl, .inl ⟨rfl, nofun⟩⟩
  · exact ⟨rfl, fun _ => rfl, rfl, rfl, fun _ => rfl, .inr ⟨k, rfl⟩⟩

end Sys2Proof.Machine

/-! ## The stack (43_stack.md): PUSH and POP, and the frames of PUSH, CALL, POP and RET -/

namespace Sys2Proof.Machine

/-! PUSH. -/

/-- The decremented SP as the word of its number (R201). -/
theorem State.sp_sub_one_eq_ofNat {s : State} (h : s.sp ≠ 0) : s.sp - 1 = BitVec.ofNat 8 (s.sp.toNat - 1) := by
  rw [← State.decSp_toNat h, State.decSp_sp, BitVec.ofNat_toNat, BitVec.setWidth_eq]

/-- Settles O20: a PUSH whose checks pass stores the register as the decrement has left it. -/
theorem pushStoresBelowSp : Obligations.PushStoresBelowSp := by
  intro s a ha hpos hfit
  rw [← s.sp_eq] at hpos hfit ⊢
  have hsp := s.sp_ne_zero_iff.2 hpos
  refine ⟨_, exec_push_of_checks (regIndex_of_lt ha) hsp hfit, ?_, Memory.read_write_self _ _ _,
    fun x hx => Memory.read_write_ne _ _ hx, rfl, rfl, rfl, rfl, rfl, rfl⟩
  exact congrArg (s.regs.set 7 ·) (State.sp_sub_one_eq_ofNat hsp)

/-! POP. -/

/-- POP whose checks pass loads the byte at SP into the register, then sets SP to one more than that write has left
there, and advances (R202, R204). -/
theorem exec_pop_of_checks {s : State} {a v : Byte} {r : Fin 8} (ha : regIndex a = .ok r)
    (hm : s.sp.toNat < s.cfg.memSize) (hv : Memory.read s.mem s.sp.toNat = v) (hle : (s.setReg r v).sp.toNat ≤ 254) :
    exec (.pop a) s =
      .next (((s.setReg r v).setSp (BitVec.ofNat 8 ((s.setReg r v).sp.toNat + 1))).advance .pop) := by
  have hread : s.popRead = .ok v := hv ▸ State.memRead_of_lt hm
  have hsp : (if r = 7 then v else s.sp) = (s.setReg r v).sp := by
    split
    case isTrue h7 => rw [h7]; exact (s.setReg_reg_self 7 v).symm
    case isFalse h7 => exact (s.setReg_reg_ne r 7 v (Ne.symm h7)).symm
  have hcheck : popCheck ((s.setReg r v).sp.toNat + 1) = .ok () := popCheck_ok (Nat.succ_le_succ hle)
  simp only [exec, execPop, ha, hread, hsp, hcheck, except_ok_bind, State.settle_ok]

/-- Settles O21: a write to another register leaves SP, which the increment then reads. -/
theorem popLoadsAndIncrementsSp : Obligations.PopLoadsAndIncrementsSp := by
  intro s a ha hm hle
  rw [← s.sp_eq] at hm hle ⊢
  have ha8 : a.toNat < 8 := Nat.lt_succ_of_lt ha
  have hsp (v : Byte) : (s.setReg ⟨a.toNat, ha8⟩ v).sp = s.sp :=
    s.setReg_reg_ne _ 7 v fun e => Nat.ne_of_gt ha (congrArg Fin.val e)
  have h := exec_pop_of_checks (regIndex_of_lt ha8) hm rfl ((hsp _).symm ▸ hle)
  rwa [hsp] at h

/-- Of two writes to one register the second stays. -/
theorem State.setReg_setReg (s : State) (r : Fin 8) (v w : Byte) : (s.setReg r v).setReg r w = s.setReg r w := by
  simp only [State.setReg, Vector.set_set]

/-- Settles O22: the increment reads the popped byte, and its write to R7 replaces that of the load. -/
theorem popOfSpLeavesThePoppedBytePlusOne : Obligations.PopOfSpLeavesThePoppedBytePlusOne := by
  intro s hm hle
  rw [← s.sp_eq] at hm hle ⊢
  have hsp (v : Byte) : (s.setReg 7 v).sp = v := s.setReg_reg_self 7 v
  have h := exec_pop_of_checks (a := 7) (r := 7) rfl hm rfl ((hsp _).symm ▸ hle)
  rwa [hsp, State.setSp, State.setReg_setReg] at h

/-! PUSH and then POP of one register. -/

/-- Writing to a register what it holds changes nothing. -/
theorem State.setReg_reg_eq_self (s : State) (r : Fin 8) : s.setReg r (s.reg r) = s := by
  simp only [State.setReg, State.reg, Vector.set_getElem_self]

/-- POP of the value that the register holds already, R7 included, increments SP and advances (R204). -/
theorem exec_pop_of_read_eq_reg {s : State} {a : Byte} {r : Fin 8} (ha : regIndex a = .ok r)
    (hm : s.sp.toNat < s.cfg.memSize) (hv : Memory.read s.mem s.sp.toNat = s.reg r) (hle : s.sp.toNat ≤ 254) :
    exec (.pop a) s = .next ((s.setSp (BitVec.ofNat 8 (s.sp.toNat + 1))).advance .pop) := by
  have hself := s.setReg_reg_eq_self r
  have h := exec_pop_of_checks ha hm hv (hself.symm ▸ hle)
  rwa [hself] at h

/-- Settles O45: the POP finds at SP the byte that the PUSH has left in the register, so that only SP changes, back to
its value before the PUSH. -/
theorem pushThenPopRoundTrips : Obligations.PushThenPopRoundTrips := by
  intro s a ha hpos hle
  obtain ⟨t, ht, hregs, hread, -, -, -, hstatus, -, -, hcfg⟩ := pushStoresBelowSp s a ha hpos (by omega)
  have hsp : t.sp.toNat = s.regs[7].toNat - 1 := by
    rw [t.sp_eq, hregs, Vector.getElem_set_self, BitVec.toNat_ofNat]
    omega
  have hin : t.sp.toNat < t.cfg.memSize := by rw [hsp, hcfg]; omega
  have hpop := exec_pop_of_read_eq_reg (regIndex_of_lt ha) hin (hsp ▸ hread) (by omega)
  refine ⟨t, _, ht, hpop, ?_, hstatus, fun h7 => hread.trans ?_, fun h7 => ?_⟩
  · rw [State.advance_regs, State.setSp_regs, hsp, Nat.sub_add_cancel hpos, hregs, Vector.set_set,
      BitVec.ofNat_toNat, BitVec.setWidth_eq, Vector.set_getElem_self]
  · simp only [hregs, Vector.getElem_set_ne _ _ (Ne.symm h7)]
  · refine ⟨?_, hsp⟩
    simp only [hread, h7]
    exact hsp

/-! The frames. -/

/-- A write to SP leaves R0 to R6. -/
theorem State.setSp_getElem_ne (s : State) (v : Byte) {r : Nat} (hr : r < 8) (h : r ≠ 7) :
    (s.setSp v).regs[r] = s.regs[r] :=
  Vector.getElem_set_ne (Nat.lt_succ_self 7) hr h.symm

/-- A completed PUSH or CALL decrements SP, stores a byte there and moves PC (R203, R220). -/
theorem Completes.store_at_decSp {i : Instr} {s t : State} {a : Byte} (h : Completes i s t)
    (hi : i = .push a ∨ i = .call a) :
    ∃ v pc, t = { s.decSp with mem := Memory.write s.mem s.decSp.sp.toNat v, pc := pc } := by
  rcases hi with rfl | rfl
  all_goals
    obtain ⟨r, u, -, -, hu, rfl⟩ := h
    obtain ⟨-, rfl⟩ := State.memWrite_eq_ok hu
    exact ⟨_, _, rfl⟩

/-- Settles O55: SP, PC and the byte at the decremented SP are written, or an error is taken. -/
theorem storingFrame : Obligations.StoringFrame := by
  intro s t a i hi h
  rcases exec_cases h with hc | ⟨k, rfl⟩
  · obtain ⟨v, pc, rfl⟩ := hc.store_at_decSp hi
    refine ⟨fun r hr hne => s.setSp_getElem_ne _ hr hne, fun x hx y hy => ?_, rfl, rfl, rfl, .inl ⟨rfl, rfl⟩⟩
    exact Memory.read_write_ne s.mem v (hx.symm ▸ hy)
  · exact ⟨fun _ _ _ => rfl, fun _ _ _ _ => rfl, rfl, rfl, rfl, .inr ⟨k, rfl⟩⟩

/-- Settles O56: a POP writes its register, SP and PC, a RET only SP and PC, or an error is taken. -/
theorem poppingFrame : Obligations.PoppingFrame := by
  intro s t a i hi h
  rcases exec_cases h with hc | ⟨k, rfl⟩
  · rcases hi with rfl | rfl
    · obtain ⟨r, v, hr, -, -, rfl⟩ := hc
      obtain ⟨-, hra⟩ := regIndex_eq_ok hr
      refine ⟨fun q hq h7 hne => ?_, fun _ => rfl, rfl, rfl, rfl, .inl ⟨rfl, rfl⟩⟩
      exact ((s.setReg r v).setSp_getElem_ne _ hq h7).trans
        (Vector.getElem_set_ne r.isLt hq (hra.trans_ne (hne rfl).symm))
    · obtain ⟨v, -, -, rfl⟩ := hc
      exact ⟨fun q hq h7 _ => s.setSp_getElem_ne _ hq h7, fun _ => rfl, rfl, rfl, rfl, .inl ⟨rfl, rfl⟩⟩
  · exact ⟨fun _ _ _ _ => rfl, fun _ => rfl, rfl, rfl, rfl, .inr ⟨k, rfl⟩⟩

end Sys2Proof.Machine

/-! ## Control (44_control.md): CALL, RET, JMP, JEQ and JNE -/

namespace Sys2Proof.Machine

/-! CALL and RET. -/

/-- CALL of a register whose checks pass decrements SP, stores the return address at the new SP, and jumps to the
register as the decrement has left it (R201, R220). -/
theorem exec_call_of_checks {s : State} {a : Byte} {r : Fin 8} (ha : regIndex a = .ok r) (hsp : s.sp ≠ 0)
    (hm : s.sp.toNat - 1 < s.cfg.memSize) :
    exec (.call a) s = .next (State.jumpTo
      { s.decSp with mem := Memory.write s.mem (s.sp.toNat - 1) (BitVec.ofNat 8 (s.pc + 2)) } (s.decSp.reg r)) := by
  have hw := State.memWrite_of_lt (s := s.decSp) (BitVec.ofNat 8 (s.pc + 2)) hm
  simp only [exec, execCall, ha, State.pushCheck_ok hsp hm, State.decSp_toNat hsp, hw, except_ok_bind,
    State.settle_ok, State.decSp_mem]
  rfl

/-- Settles O23: a CALL whose checks pass stores the return address, which a fetch inside 256 cells keeps below 256. -/
theorem callPushesTheReturnAddress : Obligations.CallPushesTheReturnAddress := by
  intro s a ha hpos hfit
  rw [← s.sp_eq] at hpos hfit ⊢
  have hsp := s.sp_ne_zero_iff.2 hpos
  have hread := Memory.read_write_self s.mem (s.sp.toNat - 1) (BitVec.ofNat 8 (s.pc + 2))
  refine ⟨_, exec_call_of_checks (regIndex_of_lt ha) hsp hfit, ?_, hread, fun hpc hsize => ?_,
    fun x hx => Memory.read_write_ne _ _ hx, rfl, rfl, rfl, rfl, rfl, rfl⟩
  · exact congrArg (s.regs.set 7 ·) (State.sp_sub_one_eq_ofNat hsp)
  · exact (congrArg BitVec.toNat hread).trans (Nat.mod_eq_of_lt (by omega))

/-- RET whose checks pass increments SP and jumps to the byte that was at SP (R202, R221). -/
theorem exec_ret_of_checks {s : State} (hm : s.sp.toNat < s.cfg.memSize) (hle : s.sp.toNat ≤ 254) :
    exec .ret s = .next ((s.setSp (s.sp + 1)).jumpTo (Memory.read s.mem s.sp.toNat)) := by
  have hread : s.popRead = .ok (Memory.read s.mem s.sp.toNat) := State.memRead_of_lt hm
  have hcheck : popCheck (s.sp.toNat + 1) = .ok () := popCheck_ok (Nat.succ_le_succ hle)
  simp only [exec, execRet, hread, hcheck, except_ok_bind, State.settle_ok]

/-- The incremented SP as the word of its number (R202). -/
theorem State.sp_add_one_eq_ofNat (s : State) : s.sp + 1 = BitVec.ofNat 8 (s.sp.toNat + 1) := by
  rw [BitVec.ofNat_add, BitVec.ofNat_toNat, BitVec.setWidth_eq]
  rfl

/-- Settles O24, by the two checks of a pop. -/
theorem retPopsThePc : Obligations.RetPopsThePc := by
  intro s hm hle
  rw [← s.sp_eq] at hm hle ⊢
  rw [exec_ret_of_checks hm hle, State.sp_add_one_eq_ofNat]
  rfl

/-- Settles O46: the RET finds at SP the return address that the CALL has pushed there, and increments SP back to its
value before the CALL. -/
theorem callThenRetReturns : Obligations.CallThenRetReturns := by
  intro s a hcfg ha hf hd hpos hfit
  obtain ⟨t, ht, hregs, -, hread, -, -, -, hstatus, -, -, hkept⟩ := callPushesTheReturnAddress s a ha hpos hfit
  have hrun : t.status = .running := hstatus.trans hf.1
  have hsp : t.regs[7].toNat = s.regs[7].toNat - 1 := by
    rw [hregs, Vector.getElem_set_self, BitVec.toNat_ofNat]
    omega
  have hle : t.regs[7].toNat ≤ 254 := by omega
  refine ⟨t, (stepRunsTheDecodedInstruction s _ hf hd).trans ht, hrun, hle, fun hpc hret => ?_⟩
  have hin : t.regs[7].toNat < t.cfg.memSize := by rwa [hsp, hkept]
  have hstep := (stepRunsTheDecodedInstruction t _ ⟨hrun, by rwa [hkept]⟩ (by rwa [hkept])).trans (retPopsThePc t hin hle)
  refine ⟨_, hstep, ?_, ?_, hrun⟩
  · rw [← hread hf.2 hcfg.2.1, hsp]
  · rw [hsp, Nat.sub_add_cancel hpos, hregs, Vector.set_set, BitVec.ofNat_toNat, BitVec.setWidth_eq,
      Vector.set_getElem_self]

/-! JMP, JEQ and JNE. -/

/-- JMP to a register sets PC to its value (R222). -/
theorem exec_jmp_of_regIndex {a : Byte} {r : Fin 8} (ha : regIndex a = .ok r) (s : State) :
    exec (.jmp a) s = .next (s.jumpTo (s.reg r)) := by
  rw [exec, execJmp, ha, except_ok_bind, State.settle_ok]

/-- JEQ of a register jumps if E is set and advances otherwise (R223). -/
theorem exec_jeq_of_regIndex {a : Byte} {r : Fin 8} (ha : regIndex a = .ok r) (s : State) :
    exec (.jeq a) s = .next (if s.flagE then s.jumpTo (s.reg r) else s.advance .jeq) := by
  rw [exec, execJeq, ha, except_ok_bind, State.settle_ok]

/-- JNE of a register advances if E is set and jumps otherwise (R224). -/
theorem exec_jne_of_regIndex {a : Byte} {r : Fin 8} (ha : regIndex a = .ok r) (s : State) :
    exec (.jne a) s = .next (if s.flagE then s.advance .jne else s.jumpTo (s.reg r)) := by
  rw [exec, execJne, ha, except_ok_bind, State.settle_ok]

/-- Settles O25: the operand byte names a register. -/
theorem jmpSetsThePc : Obligations.JmpSetsThePc :=
  fun s _ ha => exec_jmp_of_regIndex (regIndex_of_lt ha) s

/-- Settles O26, by the two values of E; JEQ's length is 2. -/
theorem jeqJumpsWhenEIsSet : Obligations.JeqJumpsWhenEIsSet := by
  intro s a ha
  rw [exec_jeq_of_regIndex (regIndex_of_lt ha), ← State.flagE]
  cases s.flagE with
  | true => rfl
  | false => rfl

/-- Settles O27, by the two values of E; JNE's length is 2. -/
theorem jneJumpsWhenEIsClear : Obligations.JneJumpsWhenEIsClear := by
  intro s a ha
  rw [exec_jne_of_regIndex (regIndex_of_lt ha), ← State.flagE]
  cases s.flagE with
  | true => rfl
  | false => rfl

/-- Settles O47: the tick of such a JMP sets PC to the value it has, so that it answers the state it started from. -/
theorem jumpToItselfHangs : Obligations.JumpToItselfHangs := by
  intro s a ha hf hd hpc
  have hstep : step s = .next s := by
    rw [stepRunsTheDecodedInstruction s _ hf hd, jmpSetsThePc s a ha, hpc]
  have hticks := State.ticks_of_tick_eq (State.tick_of_next hstep)
  exact ⟨fun n => by rw [hticks n, hf.1], hticks⟩

/-! The frame. -/

/-- A completed JMP, JEQ or JNE sets PC alone (R222 to R224). -/
theorem Completes.jump_sets_pc {i : Instr} {s t : State} {a : Byte} (h : Completes i s t)
    (hi : i = .jmp a ∨ i = .jeq a ∨ i = .jne a) : ∃ pc, t = { s with pc := pc } := by
  rcases hi with rfl | rfl | rfl <;> obtain ⟨r, -, rfl⟩ := h
  · exact ⟨_, rfl⟩
  · split <;> exact ⟨_, rfl⟩
  · split <;> exact ⟨_, rfl⟩

/-- Settles O54: PC alone is set, or an error is taken. -/
theorem jumpFrame : Obligations.JumpFrame := by
  intro s t a i hi h
  rcases exec_cases h with hc | ⟨k, rfl⟩
  · obtain ⟨pc, rfl⟩ := hc.jump_sets_pc hi
    exact ⟨rfl, fun _ => rfl, rfl, rfl, rfl, .inl ⟨rfl, rfl⟩⟩
  · exact ⟨rfl, fun _ => rfl, rfl, rfl, rfl, .inr ⟨k, rfl⟩⟩

end Sys2Proof.Machine

/-! ## Exceptions (60_exceptions.md): which check raises which error, and that an error changes nothing else -/

namespace Sys2Proof

/-- An instruction is known by its name and its operand bytes (R91). -/
theorem Instr.eq_of_mnemonic_of_operands {i j : Instr} (hk : i.mnemonic = j.mnemonic)
    (ho : i.operands = j.operands) : i = j := by
  obtain ⟨a, b, rest, hbytes, hi⟩ := i.ofParts_of_operands_append 0 0
  obtain ⟨a', b', rest', hbytes', hj⟩ := j.ofParts_of_operands_append 0 0
  rw [ho, hbytes'] at hbytes
  cases hbytes
  rw [← hi, hk, hj]

/-- Decode answers the same instruction for any two operand bytes that begin alike, as far as its operand count goes
(R91, R101). -/
theorem decode_of_take_eq {m : OpcodeMap} {op a b a' b' : Byte} {i : Instr} (h : decode m op a b = .ok i)
    (hbytes : [a', b'].take i.mnemonic.operandCount = [a, b].take i.mnemonic.operandCount) :
    decode m op a' b' = .ok i := by
  obtain ⟨k, hk, rfl⟩ := decode_eq_ok h
  rw [Instr.ofParts_mnemonic] at hbytes
  rw [decode_of_lookup hk]
  refine congrArg Except.ok (Instr.eq_of_mnemonic_of_operands ?_ ?_)
  · rw [Instr.ofParts_mnemonic, Instr.ofParts_mnemonic]
  · rw [Instr.ofParts_operands, Instr.ofParts_operands, hbytes]

/-- A byte that is no instruction's opcode is unknown (R96, R102). -/
theorem OpcodeMap.lookup_eq_none_of_forall_code_ne {m : OpcodeMap} {op : Byte} (h : ∀ k, m.code k ≠ op) :
    m.lookup op = none := by
  by_contra hsome
  obtain ⟨k, hk⟩ := Option.ne_none_iff_exists'.1 hsome
  exact h k (OpcodeMap.code_of_lookup hk)

end Sys2Proof

namespace Sys2Proof.Machine

/-! The tick. -/

/-- An unknown opcode fetched inside memory is Decode's error (R123, R253). -/
theorem State.fetchDecode_of_unknown {s : State} (hb : s.pc + 2 < s.cfg.memSize)
    (h : s.cfg.opcodes.lookup (s.byteAt 0) = none) : s.fetchDecode = .error (.illegal (s.byteAt 0)) := by
  have hd (a b : Byte) : decode s.cfg.opcodes (Memory.read s.mem s.pc) a b = .error (.unknownOpcode (s.byteAt 0)) :=
    decode_of_unknown h a b
  unfold State.fetchDecode
  rw [State.fetch_of_canFetch hb]
  simp only [hd]

/-- Settles O10: the running core takes Decode's error on an opcode that the lookup does not find. -/
theorem unknownOpcodeStopsTheCore : Obligations.UnknownOpcodeStopsTheCore := by
  intro s ⟨hr, hb⟩ hop
  have hlookup := OpcodeMap.lookup_eq_none_of_forall_code_ne hop
  exact ⟨step_of_error hr (State.fetchDecode_of_unknown hb hlookup), rfl, rfl⟩

/-- Every instruction answers a next state: HLT checks nothing, and every other meaning ends by settling (R124). -/
theorem exec_total (i : Instr) (s : State) : ∃ t, exec i s = .next t := by
  cases i with
  | hlt => exact ⟨_, rfl⟩
  | _ => exact State.settle_total s _

/-- Settles O12: a stopped core is idle, and a running one executes an instruction or takes an error. -/
theorem everyTickAnswersANextState : Obligations.EveryTickAnswersANextState := by
  intro s
  by_cases hr : s.status = .running
  · cases hf : s.fetchDecode with
    | ok i => rw [step_of_ok hr hf]; exact exec_total i s
    | error st => exact ⟨_, step_of_error hr hf⟩
  · exact ⟨s, stoppedTickChangesNothing s hr⟩

/-- An error status is not RUNNING (R262). -/
theorem Status.IsError.ne_running {st : Status} (h : st.IsError) : st ≠ .running := by
  rintro rfl
  exact Bool.false_ne_true h

/-- Settles O32: of what a running core's tick can do only the taking of an error ends in one, and it stops the core. -/
theorem errorsArePrecise : Obligations.ErrorsArePrecise := by
  intro s t hr h ht
  rcases step_cases h with ⟨hne, -⟩ | ⟨-, i, -, hc⟩ | ⟨-, st, -, rfl⟩
  · exact absurd hr hne
  · exact absurd ht (hc.not_isError hr)
  · exact ⟨rfl, stoppedTickChangesNothing _ ht.ne_running⟩

/-! The checks of an Execute step, in order. -/

/-- The first check that raises decides the Execute step, and what follows it is not looked at (R251, R258). -/
theorem State.settle_of_check_error (s : State) {α : Type} {x : Except FaultKind α} {k : FaultKind}
    (h : x = .error k) (f : α → Except FaultKind State) : s.settle (x >>= f) = .next (s.raise (.fault k)) := by
  rw [h, except_error_bind, State.settle_error]

/-- A check that passes leaves the Execute step to what follows it. -/
theorem State.settle_of_check_ok (s : State) {α : Type} {x : Except FaultKind α} {a : α} (h : x = .ok a)
    (f : α → Except FaultKind State) : s.settle (x >>= f) = s.settle (f a) := by
  rw [h, except_ok_bind]

/-- A register byte A of 8 or more raises, for each of the eleven forms that have one (R255). -/
theorem exec_of_operandA_ge {s : State} {a b : Byte} {i : Instr} (ha : 8 ≤ a.toNat)
    (hi : i ∈ [Instr.ldi a b, .prn a, .add a b, .mul a b, .cmp a b, .push a, .pop a, .call a, .jmp a, .jeq a, .jne a]) :
    exec i s = .next (s.raise (.fault (.registerIndexFault a))) := by
  simp only [List.mem_cons, List.not_mem_nil, or_false] at hi
  rcases hi with rfl | rfl | rfl | rfl | rfl | rfl | rfl | rfl | rfl | rfl | rfl
  all_goals exact s.settle_of_check_error (regIndex_of_ge ha) _

/-- The shared Execute step of the ALU checks register byte B once A has passed (R255). -/
theorem execAlu_of_operandB_ge {a b : Byte} (ha : a.toNat < 8) (hb : 8 ≤ b.toNat) (tag : AluTag) (k : Mnemonic)
    (s : State) : execAlu tag k a b s = .next (s.raise (.fault (.registerIndexFault b))) :=
  (s.settle_of_check_ok (regIndex_of_lt ha) _).trans (s.settle_of_check_error (regIndex_of_ge hb) _)

/-- Settles O28, by the check of A, the ALU's check of B, and the operand bytes that Decode keeps. -/
theorem registerByteOfEightOrMoreFaults : Obligations.RegisterByteOfEightOrMoreFaults := by
  refine ⟨fun s a b i ha hi => exec_of_operandA_ge ha hi, fun s a b i ha hb hi => ?_,
    fun m op a b a' b' i h => ⟨fun h1 => ?_, fun h0 => ?_⟩⟩
  · simp only [List.mem_cons, List.not_mem_nil, or_false] at hi
    rcases hi with rfl | rfl | rfl
    all_goals exact execAlu_of_operandB_ge ha hb _ _ s
  · exact decode_of_take_eq h (by rw [h1]; rfl)
  · exact decode_of_take_eq h (by rw [h0]; rfl)

/-! The stack checks. -/

/-- PUSH and CALL of a register take the error of a push's checks (R201). -/
theorem exec_of_pushCheck_error {s : State} {a : Byte} {i : Instr} {k : FaultKind} (ha : a.toNat < 8)
    (hp : s.pushCheck = .error k) (hi : i = .push a ∨ i = .call a) : exec i s = .next (s.raise (.fault k)) := by
  rcases hi with rfl | rfl
  all_goals exact (s.settle_of_check_ok (regIndex_of_lt ha) _).trans (s.settle_of_check_error hp _)

/-- POP of a register and RET take the error of a pop's read (R202). -/
theorem exec_of_popRead_error {s : State} {a : Byte} {i : Instr} {k : FaultKind} (ha : a.toNat < 8)
    (hv : s.popRead = .error k) (hi : i = .pop a ∨ i = .ret) : exec i s = .next (s.raise (.fault k)) := by
  rcases hi with rfl | rfl
  · exact (s.settle_of_check_ok (regIndex_of_lt ha) _).trans (s.settle_of_check_error hv _)
  · exact s.settle_of_check_error hv _

/-- The increment of 255 underflows (R202, R257). -/
theorem popCheck_of_eq_255 {v : Byte} (h : v = 255) : popCheck (v.toNat + 1) = .error .stackUnderflow := by
  rw [h]; exact popCheck_underflow (by decide)

/-- POP whose increment would start from 255, at the popped byte for R7 and at SP otherwise, underflows (R204). -/
theorem exec_pop_underflow {s : State} {a : Byte} {r : Fin 8} (ha : regIndex a = .ok r)
    (hm : s.sp.toNat < s.cfg.memSize) (h : (if r = 7 then Memory.read s.mem s.sp.toNat else s.sp) = 255) :
    exec (.pop a) s = .next (s.raise (.fault .stackUnderflow)) :=
  (s.settle_of_check_ok ha _).trans <|
    (s.settle_of_check_ok (State.memRead_of_lt hm) _).trans (s.settle_of_check_error (popCheck_of_eq_255 h) _)

/-- RET with SP = 255 inside memory underflows (R221). -/
theorem exec_ret_underflow {s : State} (hm : s.sp.toNat < s.cfg.memSize) (h : s.sp = 255) :
    exec .ret s = .next (s.raise (.fault .stackUnderflow)) :=
  (s.settle_of_check_ok (State.memRead_of_lt hm) _).trans (s.settle_of_check_error (popCheck_of_eq_255 h) _)

/-- Settles O29: a push's first check raises. -/
theorem pushAtZeroOverflows : Obligations.PushAtZeroOverflows :=
  fun _ _ _ ha hsp hi => exec_of_pushCheck_error ha (State.pushCheck_overflow hsp) hi

/-- Settles O30: the read at SP is inside memory, and the increment starts from 255. -/
theorem popPast255Underflows : Obligations.PopPast255Underflows := by
  constructor
  · intro s a i ha hsp hsize hi
    rw [← s.sp_eq] at hsp
    have hm : s.sp.toNat < s.cfg.memSize := by rw [hsp]; exact hsize
    rcases hi with rfl | rfl
    · have h7 : (⟨a.toNat, Nat.lt_succ_of_lt ha⟩ : Fin 8) ≠ 7 := fun e => Nat.ne_of_lt ha (congrArg Fin.val e)
      exact exec_pop_underflow (regIndex_of_lt _) hm (by rw [if_neg h7, hsp])
    · exact exec_ret_underflow hm hsp
  · intro s hm hv
    exact exec_pop_underflow (r := 7) rfl hm hv

/-- Settles O31: a push's second check and a pop's read raise with the address they look at. -/
theorem stackAccessOutsideMemoryFaults : Obligations.StackAccessOutsideMemoryFaults :=
  ⟨fun _ _ _ ha hsp hm hi => exec_of_pushCheck_error ha (State.pushCheck_memoryFault hsp hm) hi,
    fun _ _ _ ha hm hi => exec_of_popRead_error ha (State.memRead_of_ge hm) hi⟩

end Sys2Proof.Machine

/-! ## Reset and hazards (70_reset_and_hazards.md): the load port keeps a legal state legal -/

namespace Sys2Proof.Machine

/-- A poke keeps a legal state legal: it changes memory at most, and keeps its canonical form and its bound (R52). -/
theorem State.Legal.poke {s : State} (h : s.Legal) (a : Nat) (v : Byte) : (s.poke a v).Legal := by
  obtain ⟨hcfg, hwf, hbelow, hrest⟩ := h
  rw [State.poke_eq]
  exact ⟨hcfg, State.poke_wf a v hwf, State.poke_below a v hbelow, hrest⟩

/-- A list of pokes keeps a legal state legal, however far it runs past the end of memory (log 11). -/
theorem State.Legal.pokeAll {s : State} (h : s.Legal) (a : Nat) (image : List Byte) : (s.pokeAll a image).Legal := by
  induction image generalizing s a with
  | nil => exact h
  | cons b rest ih => exact ih (h.poke a b) (a + 1)

/-- A load keeps a legal state legal: the MEM_INIT it starts from is in canonical form and inside memory (R291, R6). -/
theorem State.Legal.load {s : State} (h : s.Legal) (image : List Byte) : (s.load image).Legal := by
  obtain ⟨hcfg, -, -, hrest⟩ := h
  have ⟨_, _, _, hwf, hbelow⟩ := hcfg
  have hinit : State.Legal { s with mem := s.cfg.memInit } := ⟨hcfg, hwf, hbelow, hrest⟩
  exact hinit.pokeAll 0 image

/-- Settles O35, as a launch is a load after a reset, and the reset state is legal. -/
theorem launchStatesAreLegal : Obligations.LaunchStatesAreLegal := by
  intro c image hc
  rw [State.launch_eq]
  exact (State.resetWith_legal hc).load image

end Sys2Proof.Machine
